-- ==== Sys2Proof/Word.lean ====
section
/-! DEFINITION. The words of the block CBF (spec/00_scope.md R6, R9): bytes of the buffer, the 32-bit
checksum, the 64-bit value and the 64-bit command word, and the one way a bit field of a word is read. -/

namespace Sys2Proof

/-- A buffer cell: "one byte of 8 bits" (R6). -/
abbrev Byte := BitVec 8

/-- The width of the checksum register C and of the immediates of SETVL and SETVH (R6, R63). -/
abbrev Word32 := BitVec 32

/-- The width of the value register V (R6). -/
abbrev Word64 := BitVec 64

/-- One command word, `cmd[63:0]` (R60). -/
abbrev Command := BitVec 64

/-- `x[hi:lo]` for a number: `floor(x / 2^lo) mod 2^(hi-lo+1)` (R9). -/
def bits (x hi lo : Nat) : Nat := x / 2 ^ lo % 2 ^ (hi - lo + 1)

end Sys2Proof
end

