-- ==== Sys2Proof/Syntax.lean ====
section
/-! DEFINITION. The ten commands (spec/30_encoding.md R68), one constructor per row of
spec/opcode_table.json. Operands that are addresses, counts and bit positions are natural numbers, as
R67 reads them and R13 computes with them; immediates are data, so they are bit vectors. -/

namespace Sys2Proof

/-- A command with its operands in the order of the assembler syntax (R75). -/
inductive Instr where
  /-- `NOP` (R121) -/
  | nop
  /-- `PACK base, wbytes, high, low` (R82) -/
  | pack (base wbytes high low : Nat)
  /-- `UNPACK base, wbytes, high, low` (R84) -/
  | unpack (base wbytes high low : Nat)
  /-- `ZERO base, len` (R86) -/
  | zero (base len : Nat)
  /-- `CRC base, len` (R104) -/
  | crc (base len : Nat)
  /-- `SETVL imm32` (R122) -/
  | setvl (imm32 : Word32)
  /-- `SETVH imm32` (R123) -/
  | setvh (imm32 : Word32)
  /-- `STB addr, imm8` (R124) -/
  | stb (addr : Nat) (imm8 : Byte)
  /-- `LDB addr` (R125) -/
  | ldb (addr : Nat)
  /-- `MVCV` (R114) -/
  | mvcv
deriving DecidableEq, Repr

end Sys2Proof
end

