-- ==== Sys2Proof/WellFormed.lean ====
section
/-! DEFINITION. Which terms of `Instr` are commands the encoding can name: each operand fits its field
of the command word (spec/30_encoding.md R61 to R65). The operand checks of R81, R45 and R106 are not
here: a command that fails one of those is a command, and faults. -/

namespace Sys2Proof

/-- The range of a 16-bit `base`, `addr`, `high` or `low` field: 0 to 65535 (R61, R62, R64, R65). -/
abbrev fits16 (x : Nat) : Prop := x < 2 ^ 16

/-- The range of the 8-bit `wbytes` field: 0 to 255, which is `MAX_WBYTES` (R61, R7). -/
abbrev fits8 (x : Nat) : Prop := x < 2 ^ 8

/-- The range of the 32-bit `len` field: 0 to 2^32 - 1 (R62). -/
abbrev fits32 (x : Nat) : Prop := x < 2 ^ 32

/-- The check: every operand is in the range of its field. -/
def Instr.wf : Instr → Bool
  | .nop => true
  | .pack base wbytes high low => fits16 base && fits8 wbytes && fits16 high && fits16 low
  | .unpack base wbytes high low => fits16 base && fits8 wbytes && fits16 high && fits16 low
  | .zero base len => fits16 base && fits32 len
  | .crc base len => fits16 base && fits32 len
  | .setvl _ => true
  | .setvh _ => true
  | .stb addr _ => fits16 addr
  | .ldb addr => fits16 addr
  | .mvcv => true

/-- A command the encoding can name. -/
abbrev Instr.WellFormed (i : Instr) : Prop := i.wf = true

end Sys2Proof
end

