-- ==== Sys2Proof/Decode.lean ====
section
/-! DEFINITION. The decoder, steps (2) to (4) of spec/30_encoding.md R69, total on every 64-bit word
and rejecting by name, and after it the encoder, both written from the format tables R61 to R66 and the
opcode map R68. A command word arrives on a port as a 64-bit value (spec/20_memory.md R43), so there is
no byte order of fetch. -/

namespace Sys2Proof

/-- The ten assigned opcodes (R68). -/
inductive Opcode where
  | nop | pack | unpack | zero | crc | setvl | setvh | stb | ldb | mvcv
deriving DecidableEq, Repr

/-- The six formats (R61 to R66). -/
inductive Format where
  | F | R | I | B | A | Z
deriving DecidableEq, Repr

/-- What a command word is: a command with its operands, or one of the two rejections of R69. -/
inductive Decoded where
  /-- the word is this command -/
  | instr (i : Instr)
  /-- `cmd[63:56]` is no assigned opcode (R70) -/
  | illegalOpcode
  /-- a reserved bit of the opcode's format is 1 (R71) -/
  | reservedField
deriving DecidableEq, Repr

/-- The opcode map (R68), from the byte `cmd[63:56]`; 0x0A to 0xFF are illegal (R70). -/
def opcodeOf : Nat → Option Opcode
  | 0x00 => some .nop
  | 0x01 => some .pack
  | 0x02 => some .unpack
  | 0x03 => some .zero
  | 0x04 => some .crc
  | 0x05 => some .setvl
  | 0x06 => some .setvh
  | 0x07 => some .stb
  | 0x08 => some .ldb
  | 0x09 => some .mvcv
  | _ => none

/-- The format column of R68. -/
def formatOf : Opcode → Format
  | .nop => .Z
  | .pack => .F
  | .unpack => .F
  | .zero => .R
  | .crc => .R
  | .setvl => .I
  | .setvh => .I
  | .stb => .B
  | .ldb => .A
  | .mvcv => .Z

/-- The reserved bits of a format, as the number they hold in the word `w` (R71); format F has none. -/
def reservedBits (w : Nat) : Format → Nat
  | .F => 0
  | .R => bits w 39 32
  | .I => bits w 55 32
  | .B => bits w 39 8
  | .A => bits w 39 0
  | .Z => bits w 55 0

/-- Operand extraction (R67): every operand is one contiguous field, read as an unsigned integer. -/
def operands (w : Nat) : Opcode → Instr
  | .nop => .nop
  | .pack => .pack (bits w 55 40) (bits w 39 32) (bits w 31 16) (bits w 15 0)
  | .unpack => .unpack (bits w 55 40) (bits w 39 32) (bits w 31 16) (bits w 15 0)
  | .zero => .zero (bits w 55 40) (bits w 31 0)
  | .crc => .crc (bits w 55 40) (bits w 31 0)
  | .setvl => .setvl (BitVec.ofNat 32 (bits w 31 0))
  | .setvh => .setvh (BitVec.ofNat 32 (bits w 31 0))
  | .stb => .stb (bits w 55 40) (BitVec.ofNat 8 (bits w 7 0))
  | .ldb => .ldb (bits w 55 40)
  | .mvcv => .mvcv

/-- The decoding procedure (R69): opcode, then reserved bits, then operands. -/
def decode (cmd : Command) : Decoded :=
  match opcodeOf (bits cmd.toNat 63 56) with
  | none => .illegalOpcode
  | some op =>
    if reservedBits cmd.toNat (formatOf op) = 0 then .instr (operands cmd.toNat op)
    else .reservedField

/-- The command word of a command (R61 to R66, R68), reserved bits 0. It is meant for well-formed
commands, whose operands fit their fields. -/
def encode : Instr → Command
  | .nop => 0x0000000000000000
  | .pack base wbytes high low =>
      BitVec.ofNat 64 (0x01 * 2 ^ 56 + base * 2 ^ 40 + wbytes * 2 ^ 32 + high * 2 ^ 16 + low)
  | .unpack base wbytes high low =>
      BitVec.ofNat 64 (0x02 * 2 ^ 56 + base * 2 ^ 40 + wbytes * 2 ^ 32 + high * 2 ^ 16 + low)
  | .zero base len => BitVec.ofNat 64 (0x03 * 2 ^ 56 + base * 2 ^ 40 + len)
  | .crc base len => BitVec.ofNat 64 (0x04 * 2 ^ 56 + base * 2 ^ 40 + len)
  | .setvl imm32 => BitVec.ofNat 64 (0x05 * 2 ^ 56 + imm32.toNat)
  | .setvh imm32 => BitVec.ofNat 64 (0x06 * 2 ^ 56 + imm32.toNat)
  | .stb addr imm8 => BitVec.ofNat 64 (0x07 * 2 ^ 56 + addr * 2 ^ 40 + imm8.toNat)
  | .ldb addr => BitVec.ofNat 64 (0x08 * 2 ^ 56 + addr * 2 ^ 40)
  | .mvcv => BitVec.ofNat 64 (0x09 * 2 ^ 56)

/-- The command word whose bits are the low `nbits` bits of `w`, every higher bit 0. One command is one
64-bit word (R60), so bit k of the table's numbering is bit k of the command word. -/
def tableWord (nbits w : Nat) : Command := BitVec.ofNat 64 (w % 2 ^ nbits)

/-- The command the decoder reads from a word numbered as spec/opcode_table.json numbers it. -/
def decodeTableWord (nbits w : Nat) : Option Instr :=
  match decode (tableWord nbits w) with
  | .instr i => some i
  | .illegalOpcode => none
  | .reservedField => none

end Sys2Proof
end

