-- ==== Sys2Proof/Config.lean ====
section
/-! DEFINITION. The parameters of the block (spec/00_scope.md R7). They are fixed when the block is
built and no command and no reset changes them (R27, R162). State carries one `Config`, so a claim
about every state is a claim about every value of the parameters, which is what the spec asks for
where it calls a parameter OPEN (spec/92_eei_decisions.md D3, D10, D12). The block has no free value
of the opaque kind: its one unspecified content, BUF after a reset, is data of the state
(notes/assumptions/2.md). -/

namespace Sys2Proof

/-- `PACK_OVERFLOW_MODE`: what PACK does when V does not fit the field (R7, R83). -/
inductive OverflowMode where
  /-- the command faults with ValueOverflow -/
  | fault
  /-- the command completes and ignores the excess bits of V -/
  | truncate
deriving DecidableEq, Repr

/-- `CRC_FEED`: the order in which CRC consumes the bytes of its range (R7, R105, R106). -/
inductive CrcFeed where
  /-- ascending address, any length -/
  | ascending
  /-- groups of four, each group in descending address -/
  | word32Reversed
deriving DecidableEq, Repr

/-- The named parameters of R7 that are left to whoever builds the block. (`MAX_WBYTES` is no field:
the 8-bit encoding of `wbytes` fixes it at 255, and WellFormed says so.) -/
structure Config where
  /-- `BUF_BYTES`, the number of bytes in BUF -/
  bufBytes : Nat
  /-- `PACK_OVERFLOW_MODE` -/
  overflowMode : OverflowMode
  /-- `CRC_FEED` -/
  crcFeed : CrcFeed
deriving DecidableEq, Repr

/-- The legal values of `BUF_BYTES`: "1 to 65536" (R7). -/
abbrev Config.Legal (cfg : Config) : Prop := 1 ≤ cfg.bufBytes ∧ cfg.bufBytes ≤ 65536

end Sys2Proof
end

