-- ==== Sys2Proof/Machine/Build.lean ====
section
/-! DEFINITION. The parameter values of the block that `State.reset` describes. The spec leaves them to
the builder (spec/00_scope.md R7); these are the values its examples use and its defaults. DESIGN
CHOICE, unsafe for a claim about runs from `State.reset` alone, see notes/assumptions/3.md. -/

namespace Sys2Proof.Machine

/-- "Value used in this spec's examples", R7: 64 bytes, `fault`, `ascending`. -/
def exampleBuild : Config :=
  { bufBytes := 64, overflowMode := .fault, crcFeed := .ascending }

end Sys2Proof.Machine
end

