-- ==== Sys2Proof/Machine/State.lean ====
section
/-! DEFINITION. The state of the block, plain data: the tuple (BUF, V, C, ST, FCMD) of
spec/10_state.md, the parameters it is built with, and what the host will do next on the input ports;
the reasons a step could stop (there is none but the host's own); the state after reset. -/

namespace Sys2Proof.Machine

/-- BUF as a list of cells: addresses strictly rising, no cell that holds what an unlisted address
reads as (`Memory.wf` in Machine/Ops.lean). -/
abbrev Memory := List Host.Cell

/-- One thing the host does on the input ports (R32, R33). -/
inductive HostEvent where
  /-- the host offers the command word `cmd` with `cmd_valid` 1 -/
  | offer (cmd : Command)
  /-- the host asserts and releases `rst`; `content` is what BUF turns out to hold afterwards, byte
  0 first, which the spec leaves arbitrary (R161; notes/assumptions/2.md) -/
  | reset (content : List Byte)
deriving DecidableEq, Repr

/-- Why a command faults, the cause codes of R141 by name. -/
inductive Cause where
  | illegalOpcode
  | reservedField
  | windowZero
  | bufferBounds
  | bitOrder
  | bitRange
  | fieldWidth
  | valueOverflow
  | crcLength
deriving DecidableEq, Repr

/-- The whole state. -/
structure State where
  /-- the parameters fixed when the block is built (R7, R27) -/
  cfg : Config
  /-- BUF, the byte buffer (R29) -/
  buf : Memory
  /-- V, the value register (R20) -/
  v : Word64
  /-- C, the CRC result register (R21) -/
  c : Word32
  /-- ST, the status register (R25) -/
  st : BitVec 8
  /-- FCMD, the faulting-command register (R26) -/
  fcmd : Command
  /-- MODEL'S OWN: what the host will do next, soonest first; it stands for the ports `rst`, `cmd`,
  `cmd_valid` (R32) -/
  host : List HostEvent
deriving DecidableEq, Repr

/-- The reasons a step stops with a fault: none. Every fault of the spec is a state the block enters
and stays in (R145, R147), so it is taken as a next state. Safe: nothing raises it. -/
inductive Fault where
deriving DecidableEq, Repr

/-- The reasons a step is refused. -/
inductive Refusal where
  /-- raised by an arm of `exec` whose command has no meaning yet; no arm is left so. Safe: a claim
  about such a command could not be proved. -/
  | notModelled (mnemonic : String)
deriving DecidableEq, Repr

/-- The state right after power-up or reset: "V = 0, C = 0, ST = 0 (FAULT = 0, CAUSE = 0), FCMD = 0"
(R34). BUF is unspecified there; here nothing is listed (DESIGN CHOICE, unsafe,
notes/assumptions/1.md), and `State.launch` is the same state with any content. The host has not
offered anything yet (notes/assumptions/4.md). -/
def State.reset : State :=
  { cfg := exampleBuild, buf := [], v := 0, c := 0, st := 0, fcmd := 0, host := [] }

end Sys2Proof.Machine
end

