-- ==== Sys2Proof/Machine/Flags.lean ====
section
/-! DEFINITION. The status register ST (spec/10_state.md R24, R25) and the cause codes
(spec/60_exceptions.md R141). The block has no other flag: no zero, carry, overflow or sign (R24). -/

namespace Sys2Proof.Machine

/-- The code a cause has in `ST.CAUSE` (R141). -/
def causeCode : Cause → Nat
  | .illegalOpcode => 1
  | .reservedField => 2
  | .windowZero => 3
  | .bufferBounds => 4
  | .bitOrder => 5
  | .bitRange => 6
  | .fieldWidth => 7
  | .valueOverflow => 8
  | .crcLength => 9

/-- `ST.FAULT`, bit 0 (R25). -/
def State.faulted (s : State) : Bool := s.st.getLsbD 0

/-- `ST.CAUSE`, bits 4:1 (R25). -/
def State.cause (s : State) : Nat := bits s.st.toNat 4 1

/-- ST bits 7:5, hardwired 0 (R25). -/
def State.stReserved (s : State) : Nat := bits s.st.toNat 7 5

/-- The output port `cmd_ready` between commands: "0 for good once ST.FAULT = 1" (R32). -/
def State.cmdReady (s : State) : Bool := !s.faulted

/-- ST with FAULT = 1, CAUSE = the cause's code, bits 7:5 hardwired 0 (R25, R142). -/
def faultStatus (cause : Cause) : BitVec 8 := BitVec.ofNat 8 (causeCode cause * 2 + 1)

end Sys2Proof.Machine
end

