-- ==== Sys2Proof/Machine/Ops.lean ====
section
/-! DEFINITION. The named operations over memory and registers: one byte of BUF and the big-endian
scalar of a window (spec/00_scope.md R12), zeroing, the two halves of V, taking a fault
(spec/60_exceptions.md R145), and beside it the one way out of the faulted state, reset
(spec/70_reset_and_hazards.md R160). -/

namespace Sys2Proof.Machine

/-- What a cell that is not listed reads as. The spec gives BUF no reset content (R29, R161). DESIGN
CHOICE, unsafe for a claim about the content of BUF at `State.reset`: notes/assumptions/1.md. -/
def unlistedByte : Byte := 0

/-- The canonical form: addresses strictly rising, no cell equal to an unlisted one. -/
abbrev Memory.wf (m : Memory) : Prop :=
  m.Pairwise (fun p q => p.1 < q.1) ∧ ∀ p ∈ m, p.2 ≠ unlistedByte

/-- `BUF[a]` on the right of an arrow (R11). "A read has no side effect" (R12). -/
def Memory.read : Memory → Nat → Byte
  | [], _ => unlistedByte
  | (k, b) :: rest, a => if k = a then b else Memory.read rest a

/-- A cell put in front of a list, unless it holds what an unlisted address reads as. -/
def consCell (a : Nat) (b : Byte) (m : Memory) : Memory :=
  if b = unlistedByte then m else (a, b) :: m

/-- `BUF[a] <- b` (R11), keeping the canonical form. -/
def Memory.write : Memory → Nat → Byte → Memory
  | [], a, b => consCell a b []
  | (k, c) :: rest, a, b =>
    if a < k then consCell a b ((k, c) :: rest)
    else if a = k then consCell a b rest
    else (k, c) :: Memory.write rest a b

/-- The memory whose bytes from address `a` on are `content`. -/
def Memory.ofBytes : Nat → List Byte → Memory
  | _, [] => []
  | a, b :: rest => consCell a b (Memory.ofBytes (a + 1) rest)

/-- `MemRead(a, n)` (R12): "the byte at the lowest address is the most significant". -/
def memRead (m : Memory) : Nat → Nat → Nat
  | _, 0 => 0
  | a, n + 1 => (m.read a).toNat * 2 ^ (8 * n) + memRead m (a + 1) n

/-- `MemWrite(a, n, x)` (R12): `BUF[a+i] <- x[8(n-1-i)+7 : 8(n-1-i)]`. -/
def memWrite : Memory → Nat → Nat → Nat → Memory
  | m, _, 0, _ => m
  | m, a, n + 1, x => memWrite (m.write a (BitVec.ofNat 8 (bits x (8 * n + 7) (8 * n)))) (a + 1) n x

/-- `BUF[a+i] <- 0x00` for `i` in `0 .. n-1` (R86). -/
def zeroBytes : Memory → Nat → Nat → Memory
  | m, _, 0 => m
  | m, a, n + 1 => zeroBytes (m.write a 0x00) (a + 1) n

/-- The bytes `BUF[a], BUF[a+1], ..., BUF[a+n-1]` (R105). -/
def bytesAt (m : Memory) : Nat → Nat → List Byte
  | _, 0 => []
  | a, n + 1 => m.read a :: bytesAt m (a + 1) n

/-- `V[63:32]`. -/
def highHalf (v : Word64) : Word32 := v.extractLsb' 32 32

/-- `V[31:0]`. -/
def lowHalf (v : Word64) : Word32 := v.extractLsb' 0 32

/-- `hi ‖ lo` (R10). -/
def joinHalves (hi lo : Word32) : Word64 := hi ++ lo

/-- `raise Fault(cause)` for the command word `cmd`: "ST.FAULT <- 1, ST.CAUSE <- cause, FCMD <- cmd,
cmd_ready <- 0. Nothing else changes." (R145); `cmd_ready` follows from ST. -/
def raise (cause : Cause) (cmd : Command) (s : State) : State :=
  { s with st := faultStatus cause, fcmd := cmd }

/-- The end of a command's operand checks: the first failing check raises its fault, and with none
failing the command completes in the state `done` (R14: "There is no third outcome"). -/
def finish (failed : Option Cause) (cmd : Command) (s done : State) :
    Host.Outcome State Fault Refusal :=
  match failed with
  | some cause => .next (raise cause cmd s)
  | none => .next done

/-- What `rst` does (R160): V, C, ST, FCMD become 0, so `cmd_ready` is 1. BUF is arbitrary afterwards
(R161): it is `content`, cut to the buffer's size. The parameters stay (R162). There is no return
from a fault but this (R146). -/
def applyReset (content : List Byte) (s : State) : State :=
  { s with buf := Memory.ofBytes 0 (content.take s.cfg.bufBytes), v := 0, c := 0, st := 0, fcmd := 0 }

/-- The launch state of a block built with `cfg` whose buffer happens to hold `content`: what
`State.reset` is for every parameter value and every content of BUF (R29: "treat the initial BUF as an
arbitrary, universally quantified parameter of the launch state"). -/
def State.launch (cfg : Config) (content : List Byte) : State :=
  applyReset content { State.reset with cfg := cfg }

end Sys2Proof.Machine
end

