-- ==== Sys2Proof/Machine/Operands.lean ====
section
/-! DEFINITION. The operand checks of every command, in the order of spec/60_exceptions.md R143, and
the fields of a window as numbers (spec/40_bitfield.md R82, R84). All arithmetic is on natural
numbers and never wraps (spec/00_scope.md R13). -/

namespace Sys2Proof.Machine

/-- The field width `n = high - low + 1` (R80); used only after `high >= low` has been checked. -/
def fieldWidth (high low : Nat) : Nat := high - low + 1

/-- The operand checks of PACK and UNPACK, the first that fails (R81). -/
def fieldFault (cfg : Config) (base wbytes high low : Nat) : Option Cause :=
  if wbytes = 0 then some .windowZero
  else if base + wbytes > cfg.bufBytes then some .bufferBounds
  else if high < low then some .bitOrder
  else if high > 8 * wbytes - 1 then some .bitRange
  else if fieldWidth high low > 64 then some .fieldWidth
  else none

/-- V does not fit the field: `n < 64 and V >= 2^n` (R82, R83). -/
def overflows (v : Word64) (high low : Nat) : Bool :=
  decide (fieldWidth high low < 64) && decide (v.toNat ≥ 2 ^ fieldWidth high low)

/-- The checks of PACK: those of R81, then ValueOverflow when `PACK_OVERFLOW_MODE = fault` (R82). -/
def packFault (cfg : Config) (v : Word64) (base wbytes high low : Nat) : Option Cause :=
  match fieldFault cfg base wbytes high low with
  | some cause => some cause
  | none =>
    if cfg.overflowMode = .fault ∧ overflows v high low = true then some .valueOverflow else none

/-- The check of ZERO and the first of CRC: `base + len > BUF_BYTES` (R86, R104, R45). -/
def rangeFault (cfg : Config) (base len : Nat) : Option Cause :=
  if base + len > cfg.bufBytes then some .bufferBounds else none

/-- The checks of CRC: the range, then the length under `word32_reversed` (R104, R106). -/
def crcFault (cfg : Config) (base len : Nat) : Option Cause :=
  match rangeFault cfg base len with
  | some cause => some cause
  | none => if cfg.crcFeed = .word32Reversed ∧ len % 4 ≠ 0 then some .crcLength else none

/-- The check of STB and LDB: `addr >= BUF_BYTES` (R124, R125, R45). -/
def byteFault (cfg : Config) (addr : Nat) : Option Cause :=
  if addr ≥ cfg.bufBytes then some .bufferBounds else none

/-- `not_w(x)`, the complement of `x < 2^w` within width `w` (R10). -/
def notW (w x : Nat) : Nat := 2 ^ w - 1 - x

/-- The mask of the field's bits in the window, `(2^n - 1) << low` (R82). -/
def fieldMask (high low : Nat) : Nat := (2 ^ fieldWidth high low - 1) <<< low

/-- `S' = (S and not_(8*wbytes)(mask)) or (f << low)` with `f = V[n-1:0]` (R82). -/
def insertField (scalar wbytes high low : Nat) (v : Word64) : Nat :=
  (scalar &&& notW (8 * wbytes) (fieldMask high low)) |||
    ((v.toNat % 2 ^ fieldWidth high low) <<< low)

/-- `(S >> low) mod 2^n` (R84). -/
def extractField (scalar high low : Nat) : Nat := (scalar >>> low) % 2 ^ fieldWidth high low

/-- PACK's effect on BUF: read the window, insert the field, write the window (R82). The rule offers
this as one way of writing itself; window bytes that hold no field bit are written back unchanged
(R46; notes/assumptions/9.md). -/
def packBuf (m : Memory) (base wbytes high low : Nat) (v : Word64) : Memory :=
  memWrite m base wbytes (insertField (memRead m base wbytes) wbytes high low v)

/-- UNPACK's result, zero-extended to 64 bits (R84). -/
def unpackValue (m : Memory) (base wbytes high low : Nat) : Word64 :=
  BitVec.ofNat 64 (extractField (memRead m base wbytes) high low)

end Sys2Proof.Machine
end

