-- ==== Sys2Proof/Machine/BitField.lean ====
section
/-! DEFINITION. The Bit-Field Engine: PACK, UNPACK, ZERO (spec/40_bitfield.md). -/

namespace Sys2Proof.Machine

/-- PACK `base, wbytes, high, low` (R82, R83): "Registers: V, C, ST, FCMD unchanged." -/
def execPack (base wbytes high low : Nat) (s : State) : Host.Outcome State Fault Refusal :=
  finish (packFault s.cfg s.v base wbytes high low) (encode (.pack base wbytes high low)) s
    { s with buf := packBuf s.buf base wbytes high low s.v }

/-- UNPACK `base, wbytes, high, low` (R84): "All 64 bits of V are written". -/
def execUnpack (base wbytes high low : Nat) (s : State) : Host.Outcome State Fault Refusal :=
  finish (fieldFault s.cfg base wbytes high low) (encode (.unpack base wbytes high low)) s
    { s with v := unpackValue s.buf base wbytes high low }

/-- ZERO `base, len` (R86). -/
def execZero (base len : Nat) (s : State) : Host.Outcome State Fault Refusal :=
  finish (rangeFault s.cfg base len) (encode (.zero base len)) s
    { s with buf := zeroBytes s.buf base len }

end Sys2Proof.Machine
end

