-- ==== Sys2Proof/Machine/Checksum.lean ====
section
/-! DEFINITION. The Checksum Unit: the function `crc32`, the two feed orders, CRC and MVCV
(spec/41_crc.md). The constants are the spec's general knowledge (R101; notes/assumptions/8.md). -/

namespace Sys2Proof.Machine

/-- The generator polynomial in reflected form (R101). -/
def crcPoly : Word32 := 0xEDB88320

/-- The initial register value, and the final exclusive-or (R101). -/
def crcOnes : Word32 := 0xFFFFFFFF

/-- One turn of the inner loop of R102: shift right, and add the polynomial if bit 0 was 1. -/
def crcShift (r : Word32) : Word32 :=
  if r.getLsbD 0 then (r >>> 1) ^^^ crcPoly else r >>> 1

/-- "repeat 8 times" (R102). -/
def crcShift8 (r : Word32) : Word32 := Nat.repeat crcShift 8 r

/-- The turn of the outer loop for one byte: it enters at bits 7:0, then eight shifts (R102). -/
def crcByte (r : Word32) (b : Byte) : Word32 := crcShift8 (r ^^^ b.setWidth 32)

/-- The register `r` after the bytes, before the final inversion (R102). -/
def crcRegister (bytes : List Byte) : Word32 := bytes.foldl crcByte crcOnes

/-- `crc32` of a byte sequence, any length (R100, R102). -/
def crc32 (bytes : List Byte) : Word32 := crcRegister bytes ^^^ crcOnes

/-- Groups of four bytes from address `a`, each in descending address (R106). -/
def reversedGroups (m : Memory) : Nat → Nat → List Byte
  | _, 0 => []
  | a, g + 1 =>
    m.read (a + 3) :: m.read (a + 2) :: m.read (a + 1) :: m.read a :: reversedGroups m (a + 4) g

/-- `feed(base, len)` (R105, R106); under `word32_reversed` `len` is a multiple of 4 here. -/
def crcFeedBytes (feed : CrcFeed) (m : Memory) (base len : Nat) : List Byte :=
  match feed with
  | .ascending => bytesAt m base len
  | .word32Reversed => reversedGroups m base (len / 4)

/-- CRC `base, len` (R104). -/
def execCrc (base len : Nat) (s : State) : Host.Outcome State Fault Refusal :=
  finish (crcFault s.cfg base len) (encode (.crc base len)) s
    { s with c := crc32 (crcFeedBytes s.cfg.crcFeed s.buf base len) }

/-- MVCV: `V <- zext_64(C)` (R114). -/
def execMvcv (s : State) : Host.Outcome State Fault Refusal :=
  .next { s with v := s.c.setWidth 64 }

end Sys2Proof.Machine
end

