-- ==== Sys2Proof/Machine/DataMove.lean ====
section
/-! DEFINITION. The data-movement commands NOP, SETVL, SETVH, STB, LDB (spec/42_data_movement.md). -/

namespace Sys2Proof.Machine

/-- NOP: "The whole state is unchanged." (R121) -/
def execNop (s : State) : Host.Outcome State Fault Refusal := .next s

/-- SETVL `imm32`: `V <- V[63:32] ‖ imm32` (R122). -/
def execSetvl (imm32 : Word32) (s : State) : Host.Outcome State Fault Refusal :=
  .next { s with v := joinHalves (highHalf s.v) imm32 }

/-- SETVH `imm32`: `V <- imm32 ‖ V[31:0]` (R123). -/
def execSetvh (imm32 : Word32) (s : State) : Host.Outcome State Fault Refusal :=
  .next { s with v := joinHalves imm32 (lowHalf s.v) }

/-- STB `addr, imm8`: `BUF[addr] <- imm8` (R124). -/
def execStb (addr : Nat) (imm8 : Byte) (s : State) : Host.Outcome State Fault Refusal :=
  finish (byteFault s.cfg addr) (encode (.stb addr imm8)) s { s with buf := s.buf.write addr imm8 }

/-- LDB `addr`: `V <- zext_64(BUF[addr])`, never sign-extended (R125). -/
def execLdb (addr : Nat) (s : State) : Host.Outcome State Fault Refusal :=
  finish (byteFault s.cfg addr) (encode (.ldb addr)) s { s with v := (s.buf.read addr).setWidth 64 }

end Sys2Proof.Machine
end

