-- ==== Sys2Proof/Machine/Dispatch.lean ====
section
/-! DEFINITION. One arm per command; each calls its meaning. -/

namespace Sys2Proof.Machine

def exec (i : Instr) (s : State) : Host.Outcome State Fault Refusal :=
  match i with
  | .nop => Sys2Proof.Machine.execNop s
  | .pack base wbytes high low => Sys2Proof.Machine.execPack base wbytes high low s
  | .unpack base wbytes high low => Sys2Proof.Machine.execUnpack base wbytes high low s
  | .zero base len => Sys2Proof.Machine.execZero base len s
  | .crc base len => Sys2Proof.Machine.execCrc base len s
  | .setvl imm32 => Sys2Proof.Machine.execSetvl imm32 s
  | .setvh imm32 => Sys2Proof.Machine.execSetvh imm32 s
  | .stb addr imm8 => Sys2Proof.Machine.execStb addr imm8 s
  | .ldb addr => Sys2Proof.Machine.execLdb addr s
  | .mvcv => Sys2Proof.Machine.execMvcv s

end Sys2Proof.Machine
end

