-- ==== Sys2Proof/Machine/Issue.lean ====
section
/-! DEFINITION. What one action of the host does to the block: a command word is issued if the block is
ready (spec/10_state.md R32, spec/30_encoding.md R69), `rst` resets it, and with nothing to do the
block rests. -/

namespace Sys2Proof.Machine

/-- A command word that is issued: steps (2) to (5) of R69. A word that decodes to no command faults
with the cause R70 or R71 names. -/
def issue (cmd : Command) (s : State) : Host.Outcome State Fault Refusal :=
  match decode cmd with
  | .illegalOpcode => .next (raise .illegalOpcode cmd s)
  | .reservedField => .next (raise .reservedField cmd s)
  | .instr i => exec i s

/-- A command word that is offered: step (1) of R69. In the faulted state it is not accepted and the
state stays as it is (R147); the host then withdraws it (R172; notes/assumptions/6.md). -/
def offer (cmd : Command) (s : State) : Host.Outcome State Fault Refusal :=
  if s.cmdReady then issue cmd s else .next s

/-- The host's next action is taken from the list and happens; a host with nothing to do leaves the
block at rest, ready or faulted (R159, R164). -/
def hostTurn (s : State) : Host.Outcome State Fault Refusal :=
  match s.host with
  | [] => .next s
  | .reset content :: rest => .next (applyReset content { s with host := rest })
  | .offer cmd :: rest => offer cmd { s with host := rest }

/-- The host offers `cmd` before everything else it will do. -/
def offerFirst (cmd : Command) (s : State) : State := { s with host := .offer cmd :: s.host }

end Sys2Proof.Machine
end

