-- ==== Sys2Proof/Machine/Step.lean ====
section
/-! DEFINITION. One step of the machine: the next action of the host, to its completion. The block has no
program counter and fetches nothing (spec/10_state.md R23): the next command is the one the host
offers next, so `withFetchWord` puts the word at the head of what the host will do
(notes/assumptions/4.md). -/

namespace Sys2Proof.Machine

/-- One step. -/
def step (s : State) : Host.Outcome State Fault Refusal := hostTurn s

/-- `s` with the table word `w` of `nbits` bits as the next command the host offers. -/
def State.withFetchWord (s : State) (nbits w : Nat) : State := offerFirst (tableWord nbits w) s

end Sys2Proof.Machine
end

