-- ==== Sys2Proof/Machine/Ports.lean ====
section
/-! DEFINITION. The output ports (spec/10_state.md R32), as the host sees them between commands: they are
not state of their own, they show it. -/

namespace Sys2Proof.Machine

/-- What the host sees on the five output ports. -/
structure Outputs where
  /-- `cmd_ready` -/
  cmdReady : Bool
  /-- `v_out` -/
  vOut : Word64
  /-- `c_out` -/
  cOut : Word32
  /-- `st_out` -/
  stOut : BitVec 8
  /-- `fcmd_out` -/
  fcmdOut : Command
deriving DecidableEq, Repr

/-- The outputs "show the state after the last issued command has completed or faulted" (R32, R52). -/
def State.outputs (s : State) : Outputs :=
  { cmdReady := s.cmdReady, vOut := s.v, cOut := s.c, stOut := s.st, fcmdOut := s.fcmd }

end Sys2Proof.Machine
end

