-- ==== Sys2Proof/Safety.lean ====
section
/-! DEFINITION. The terms claims use: where bit k of a window lives, what taking a fault leaves, which
commands are safe to issue, and the invariants of the state. -/

namespace Sys2Proof.Machine

/-- `A(k)`, the address of the byte that holds bit `k` of the window (spec/20_memory.md R41). -/
def bitAddress (base wbytes k : Nat) : Nat := base + wbytes - 1 - k / 8

/-- Bit `k` of the window: bit `k mod 8` of the byte at `A(k)` (R41). -/
def windowBit (m : Memory) (base wbytes k : Nat) : Bool :=
  (m.read (bitAddress base wbytes k)).getLsbD (k % 8)

/-- The operands pass the checks of R81, in the spec's own words: the window is not empty and lies in
BUF, and "`0 <= low <= high <= 8*wbytes - 1` and `1 <= n <= 64`". -/
abbrev FieldInWindow (cfg : Config) (base wbytes high low : Nat) : Prop :=
  1 ≤ wbytes ∧ base + wbytes ≤ cfg.bufBytes ∧ low ≤ high ∧ high ≤ 8 * wbytes - 1 ∧
    high - low + 1 ≤ 64

/-- PACK of `v` does not raise ValueOverflow: the mode is `truncate`, or the field takes all 64 bits, or
`v` fits the field (R83). -/
abbrev FitsField (cfg : Config) (v : Word64) (high low : Nat) : Prop :=
  cfg.overflowMode = .truncate ∨ high - low + 1 = 64 ∨ v.toNat < 2 ^ (high - low + 1)

/-- No bit of BUF belongs to both fields. -/
abbrev FieldsDisjoint (base wbytes high low base' wbytes' high' low' : Nat) : Prop :=
  ∀ k k', low ≤ k → k ≤ high → low' ≤ k' → k' ≤ high' →
    ¬ (bitAddress base wbytes k = bitAddress base' wbytes' k' ∧ k % 8 = k' % 8)

/-- Every byte of BUF reads the same in both states. -/
abbrev SameBuf (s t : State) : Prop := ∀ a, t.buf.read a = s.buf.read a

/-- ST and FCMD, the registers only a fault and reset write (R25, R26). -/
abbrev SameFaultRegisters (s t : State) : Prop := t.st = s.st ∧ t.fcmd = s.fcmd

/-- The parameters and what the host will do next: nothing a command touches (R27). -/
abbrev SameSurroundings (s t : State) : Prop := t.cfg = s.cfg ∧ t.host = s.host

/-- `t` is `s` after the fault `cause` of the command word `cmd`: FAULT, CAUSE, FCMD and `cmd_ready`
as R142 and R145 say, and nothing else changed. -/
structure FaultTaken (cause : Cause) (cmd : Command) (s t : State) : Prop where
  faulted : t.faulted = true
  cause_eq : t.cause = causeCode cause
  reserved : t.stReserved = 0
  fcmd_eq : t.fcmd = cmd
  not_ready : t.cmdReady = false
  buf_eq : SameBuf s t
  v_eq : t.v = s.v
  c_eq : t.c = s.c
  surroundings : SameSurroundings s t

/-- The command `i` takes the fault `cause` in `s`. -/
abbrev TakesFault (i : Instr) (s : State) (cause : Cause) : Prop :=
  ∃ t, exec i s = .next t ∧ FaultTaken cause (encode i) s t

/-- The first operand check of a command that fails, none if the command completes (R141, R143). -/
def instrFault (cfg : Config) (v : Word64) : Instr → Option Cause
  | .nop => none
  | .pack base wbytes high low => packFault cfg v base wbytes high low
  | .unpack base wbytes high low => fieldFault cfg base wbytes high low
  | .zero base len => rangeFault cfg base len
  | .crc base len => crcFault cfg base len
  | .setvl _ => none
  | .setvh _ => none
  | .stb addr _ => byteFault cfg addr
  | .ldb addr => byteFault cfg addr
  | .mvcv => none

/-- The fault a command word raises when it is issued, none if it completes (R69, R143). -/
def commandFault (cfg : Config) (v : Word64) (cmd : Command) : Option Cause :=
  match decode cmd with
  | .illegalOpcode => some .illegalOpcode
  | .reservedField => some .reservedField
  | .instr i => instrFault cfg v i

/-- A command word the host may issue without a fault: what a correct program owes (R146, R166). -/
abbrev SafeToIssue (s : State) (cmd : Command) : Prop := commandFault s.cfg s.v cmd = none

/-- The good end of a run: nothing left to do and the block ready (R164). -/
abbrev GoodEnd (s : State) : Prop := s.host = [] ∧ s.cmdReady = true

/-- BUF is in canonical form and has no cell outside `0 .. BUF_BYTES-1` (R29, R49). -/
abbrev BufWf (s : State) : Prop := s.buf.wf ∧ ∀ p ∈ s.buf, p.1 < s.cfg.bufBytes

/-- What the spec says of the fields in every state a run reaches: legal parameters (R7), BUF inside
its size, ST bits 7:5 zero and CAUSE 0 to 9, "FAULT = 0 if and only if CAUSE = 0" (R25), and FCMD 0
exactly while FAULT = 0 (R26). -/
structure State.Inv (s : State) : Prop where
  legal : s.cfg.Legal
  buf : BufWf s
  reserved : s.stReserved = 0
  cause_range : s.cause ≤ 9
  fault_iff_cause : s.faulted = false ↔ s.cause = 0
  fcmd_iff : s.faulted = false ↔ s.fcmd = 0

/-- The record of a fault is enough to say why: while FAULT = 1, the word in FCMD, checked against the
parameters and V as they now stand, raises the very cause in ST (R142, R149). -/
def State.FaultExplained (s : State) : Prop :=
  s.faulted = true → ∃ cause, commandFault s.cfg s.v s.fcmd = some cause ∧ s.cause = causeCode cause

end Sys2Proof.Machine
end

