-- ==== Sys2Proof/Certificates/Slice0/Obligations.lean ====
section
/-! DEFINITION. What the model is claimed to do: statements for the provers, from the numbered rules of
spec/. The definitions under `Sys2Proof.Claims` are the rules' own words where a statement needs them
said independently of the model's meanings. -/

open Sys2Proof Sys2Proof.Machine

namespace Sys2Proof.Claims

/-- The opcode byte of a command word (R68). -/
abbrev op (cmd : Command) : Nat := bits cmd.toNat 63 56

/-- A reserved bit of the word's format is 1: the list of R71, by opcode (R68). -/
abbrev ReservedSet (cmd : Command) : Prop :=
  ((op cmd = 0x03 ∨ op cmd = 0x04) ∧ bits cmd.toNat 39 32 ≠ 0) ∨
  ((op cmd = 0x05 ∨ op cmd = 0x06) ∧ bits cmd.toNat 55 32 ≠ 0) ∨
  (op cmd = 0x07 ∧ bits cmd.toNat 39 8 ≠ 0) ∨
  (op cmd = 0x08 ∧ bits cmd.toNat 39 0 ≠ 0) ∨
  ((op cmd = 0x00 ∨ op cmd = 0x09) ∧ bits cmd.toNat 55 0 ≠ 0)

/-- The table of R141: the command word `cmd` meets the condition of the cause. -/
def Violates (cfg : Config) (v : Word64) (cmd : Command) : Cause → Prop
  | .illegalOpcode => 0x09 < op cmd
  | .reservedField => ReservedSet cmd
  | .windowZero => (op cmd = 0x01 ∨ op cmd = 0x02) ∧ bits cmd.toNat 39 32 = 0
  | .bufferBounds =>
      ((op cmd = 0x01 ∨ op cmd = 0x02) ∧
        cfg.bufBytes < bits cmd.toNat 55 40 + bits cmd.toNat 39 32) ∨
      ((op cmd = 0x03 ∨ op cmd = 0x04) ∧
        cfg.bufBytes < bits cmd.toNat 55 40 + bits cmd.toNat 31 0) ∨
      ((op cmd = 0x07 ∨ op cmd = 0x08) ∧ cfg.bufBytes ≤ bits cmd.toNat 55 40)
  | .bitOrder => (op cmd = 0x01 ∨ op cmd = 0x02) ∧ bits cmd.toNat 31 16 < bits cmd.toNat 15 0
  | .bitRange =>
      (op cmd = 0x01 ∨ op cmd = 0x02) ∧ 8 * bits cmd.toNat 39 32 < bits cmd.toNat 31 16 + 1
  | .fieldWidth =>
      (op cmd = 0x01 ∨ op cmd = 0x02) ∧ bits cmd.toNat 15 0 + 64 < bits cmd.toNat 31 16 + 1
  | .valueOverflow =>
      op cmd = 0x01 ∧ cfg.overflowMode = .fault ∧ bits cmd.toNat 15 0 ≤ bits cmd.toNat 31 16 ∧
        bits cmd.toNat 31 16 - bits cmd.toNat 15 0 + 1 < 64 ∧
        2 ^ (bits cmd.toNat 31 16 - bits cmd.toNat 15 0 + 1) ≤ v.toNat
  | .crcLength =>
      op cmd = 0x04 ∧ cfg.crcFeed = .word32Reversed ∧ bits cmd.toNat 31 0 % 4 ≠ 0

/-- The causes of the five checks of R81. -/
abbrev fieldCauses : List Cause := [.windowZero, .bufferBounds, .bitOrder, .bitRange, .fieldWidth]

/-- The BUF addresses a command reads (the table of R46). -/
def ReadsByte : Instr → Nat → Prop
  | .nop, _ => False
  | .pack base wbytes high low, a =>
      bitAddress base wbytes high ≤ a ∧ a ≤ bitAddress base wbytes low
  | .unpack base wbytes high low, a =>
      bitAddress base wbytes high ≤ a ∧ a ≤ bitAddress base wbytes low
  | .zero _ _, _ => False
  | .crc base len, a => base ≤ a ∧ a < base + len
  | .setvl _, _ => False
  | .setvh _, _ => False
  | .stb _ _, _ => False
  | .ldb addr, a => a = addr
  | .mvcv, _ => False

/-- The BUF addresses a command writes (the table of R46). -/
def WritesByte : Instr → Nat → Prop
  | .nop, _ => False
  | .pack base wbytes high low, a =>
      bitAddress base wbytes high ≤ a ∧ a ≤ bitAddress base wbytes low
  | .unpack _ _ _ _, _ => False
  | .zero base len, a => base ≤ a ∧ a < base + len
  | .crc _ _, _ => False
  | .setvl _, _ => False
  | .setvh _, _ => False
  | .stb addr _, a => a = addr
  | .ldb _, _ => False
  | .mvcv, _ => False

/-- One row of the opcode table: match, reserved_mask and the command its operands make. -/
structure Row where
  matchWord : Command
  reservedMask : Command
  isInstr : Instr → Prop

/-- spec/opcode_table.json; every row's mask is 0xFF00000000000000. -/
def opcodeTable : List Row :=
  [⟨0x0000000000000000, 0x00FFFFFFFFFFFFFF, fun i => i = .nop⟩,
   ⟨0x0100000000000000, 0x0000000000000000, fun i => ∃ b w h l, i = .pack b w h l⟩,
   ⟨0x0200000000000000, 0x0000000000000000, fun i => ∃ b w h l, i = .unpack b w h l⟩,
   ⟨0x0300000000000000, 0x000000FF00000000, fun i => ∃ b n, i = .zero b n⟩,
   ⟨0x0400000000000000, 0x000000FF00000000, fun i => ∃ b n, i = .crc b n⟩,
   ⟨0x0500000000000000, 0x00FFFFFF00000000, fun i => ∃ x, i = .setvl x⟩,
   ⟨0x0600000000000000, 0x00FFFFFF00000000, fun i => ∃ x, i = .setvh x⟩,
   ⟨0x0700000000000000, 0x000000FFFFFFFF00, fun i => ∃ a x, i = .stb a x⟩,
   ⟨0x0800000000000000, 0x000000FFFFFFFFFF, fun i => ∃ a, i = .ldb a⟩,
   ⟨0x0900000000000000, 0x00FFFFFFFFFFFFFF, fun i => i = .mvcv⟩]

/-- The inner loop of R102 on natural numbers. -/
def natShift (r : Nat) : Nat := if bits r 0 0 = 1 then (r / 2) ^^^ 0xEDB88320 else r / 2

/-- R102 on natural numbers, before the final inversion, from the register `r`. -/
def natRegister : Nat → List Byte → Nat
  | r, [] => r
  | r, b :: rest => natRegister (Nat.repeat natShift 8 (r ^^^ b.toNat)) rest

/-- `T[j]`: "the result of running the 8-step inner loop of rule R102 on `r = j`" (R103). -/
def crcTable (j : Nat) : Word32 := Nat.repeat crcShift 8 (BitVec.ofNat 32 j)

/-- The bounds and the shift of R87 at the byte `a` of the window, counted from its last byte. -/
def byteTop (last high a : Nat) : Nat := min 7 (high - 8 * (last - a))
@[inherit_doc byteTop] def byteBottom (last low a : Nat) : Nat := max 0 (low - 8 * (last - a))
@[inherit_doc byteTop] def byteShift (last low a : Nat) : Nat :=
  8 * (last - a) + byteBottom last low a - low

/-- The 8-bit mask of the field's bits in the byte `a` (R87). -/
def byteMask (last high low a : Nat) : Nat :=
  (2 ^ (byteTop last high a - byteBottom last low a + 1) - 1) <<< byteBottom last low a

/-- PACK's new value of the byte at `a` in the byte-wise form (R87). -/
def packByte (old v last high low a : Nat) : Nat :=
  (old &&& (255 - byteMask last high low a)) |||
    (bits v (byteShift last low a + byteTop last high a - byteBottom last low a)
      (byteShift last low a) <<< byteBottom last low a)

/-- UNPACK's accumulator in the byte-wise form after `n` bytes from address `a` (R87). -/
def unpackBytes (m : Memory) (last high low : Nat) : Nat → Nat → Nat → Nat
  | acc, _, 0 => acc
  | acc, a, n + 1 =>
      unpackBytes m last high low
        (acc ||| ((((m.read a).toNat &&& byteMask last high low a) >>> byteBottom last low a) <<<
          byteShift last low a))
        (a + 1) n

/-- The state after one offered word (a fault of the host's own kind never happens). -/
def afterOffer (s : State) (cmd : Command) : State :=
  match offer cmd s with
  | .next t => t
  | .fault _ => s
  | .refused _ => s

/-- The same block built with `PACK_OVERFLOW_MODE = truncate`. -/
def truncating (s : State) : State :=
  { s with cfg := { s.cfg with overflowMode := .truncate } }

/-- The soonest action of the host is `rst`. -/
abbrev RstNext (s : State) : Prop := ∃ content rest, s.host = .reset content :: rest

/-- The soonest action of the host is to offer a word to a ready block. -/
abbrev IssueNext (s : State) (cmd : Command) : Prop :=
  s.faulted = false ∧ ∃ rest, s.host = .offer cmd :: rest

end Sys2Proof.Claims

open Sys2Proof.Claims

/-! ### Reset and the step -/

/-- Section 9 of 10_state.md: the reset values, whatever the parameters, and BUF with any content at all;
`State.reset` has the same registers (its parameters and its BUF content are the model's choice, log
entries 1 and 3, and nothing is said of them here). That a byte the content list does not give reads 0
is the model's choice too, log entries 1 and 2. -/
def Obligations.ResetStateValues : Prop :=
  (∀ (cfg : Config) (content : List Byte),
    (State.launch cfg content).v = 0 ∧ (State.launch cfg content).c = 0 ∧
    (State.launch cfg content).st = 0 ∧ (State.launch cfg content).faulted = false ∧
    (State.launch cfg content).cause = 0 ∧ (State.launch cfg content).fcmd = 0 ∧
    (State.launch cfg content).cmdReady = true ∧ (State.launch cfg content).cfg = cfg ∧
    ∀ a, a < cfg.bufBytes → (State.launch cfg content).buf.read a = content.getD a 0) ∧
  State.reset.outputs = { cmdReady := true, vOut := 0, cOut := 0, stOut := 0, fcmdOut := 0 } ∧
  State.reset.faulted = false ∧ State.reset.cause = 0

/-- Section 1 of 70_reset_and_hazards.md: `rst` in any state, faulted or not, sets the four registers
and `cmd_ready`, and leaves the parameters. The last clause is the model's choice, log entry 2 (DESIGN
CHOICE): the spec leaves BUF arbitrary, and here the host's action carries the content, bytes it does not
give reading 0. That `rst` is the head of a list, and is taken off it, is log entry 4. -/
def Obligations.RstGivesResetStateFromAnyState : Prop :=
  ∀ (s : State) (content : List Byte) (rest : List HostEvent),
    s.host = .reset content :: rest →
    ∃ t, step s = .next t ∧
      t.outputs = { cmdReady := true, vOut := 0, cOut := 0, stOut := 0, fcmdOut := 0 } ∧
      t.cfg = s.cfg ∧ t.host = rest ∧
      ∀ a, a < s.cfg.bufBytes → t.buf.read a = content.getD a 0

/-- Section 8 of 30_encoding.md, word by word, and three words of 95_test_vectors.md part E that are no
commands. -/
def Obligations.WorkedEncodingsDecode : Prop :=
  decode 0x0000000000000000 = .instr .nop ∧
  decode 0x01000008003F0000 = .instr (.pack 0 8 63 0) ∧
  decode 0x010010040014000D = .instr (.pack 16 4 20 13) ∧
  decode 0x02000004001F0018 = .instr (.unpack 0 4 31 24) ∧
  decode 0x030000000000000C = .instr (.zero 0 12) ∧
  decode 0x0400000000000009 = .instr (.crc 0 9) ∧
  decode 0x0500000089ABCDEF = .instr (.setvl 0x89ABCDEF) ∧
  decode 0x0600000001234567 = .instr (.setvh 0x01234567) ∧
  decode 0x0700050000000036 = .instr (.stb 5 0x36) ∧
  decode 0x0800050000000000 = .instr (.ldb 5) ∧
  decode 0x0900000000000000 = .instr .mvcv ∧
  decode 0x01FFFFFFFFFFFFFF = .instr (.pack 65535 255 65535 65535) ∧
  decode 0x0A00000000000000 = .illegalOpcode ∧
  decode 0x0000000000000001 = .reservedField

/-- A step runs the decoded command: the word the host offers to a ready block, if it decodes to `i`, is
executed as `i` in the state whose list of host actions has moved on; `withFetchWord` offers a table word
as the very next one; and with nothing offered the block rests. That the next command is the head of a
list, and the rest step, are the model's (log entry 4). -/
def Obligations.StepRunsTheOfferedCommand : Prop :=
  (∀ (s : State) (cmd : Command) (rest : List HostEvent) (i : Instr),
    s.host = .offer cmd :: rest → s.faulted = false → decode cmd = .instr i →
    step s = exec i { s with host := rest }) ∧
  (∀ (s : State) (w : Nat) (i : Instr),
    s.faulted = false → decodeTableWord 64 w = some i → step (s.withFetchWord 64 w) = exec i s) ∧
  (∀ s : State, s.host = [] → step s = .next s)

/-- R70 and R71: a word with an unassigned opcode, or with a reserved bit set, faults with its cause and
changes nothing else; format F has no reserved bit. -/
def Obligations.UndecodableWordFaults : Prop :=
  ∀ (s : State) (cmd : Command) (rest : List HostEvent),
    s.host = .offer cmd :: rest → s.faulted = false →
    (0x0A ≤ op cmd →
      ∃ t, step s = .next t ∧ FaultTaken .illegalOpcode cmd { s with host := rest } t) ∧
    (ReservedSet cmd →
      ∃ t, step s = .next t ∧ FaultTaken .reservedField cmd { s with host := rest } t) ∧
    (op cmd = 0x01 ∨ op cmd = 0x02 → ∃ i, decode cmd = .instr i)

/-- R147: while ST.FAULT = 1, `cmd_ready` is 0 and no step but `rst` changes BUF, V, C, ST or FCMD, be it
a word of any kind that is offered, NOP and illegal words too, or no word at all. (What becomes of the
offer on the host's side is the model's, log entry 6, and is not said here.) -/
def Obligations.FaultedBlockAcceptsNothing : Prop :=
  ∀ s : State, s.faulted = true →
    s.cmdReady = false ∧
    (¬ RstNext s → ∃ t, step s = .next t ∧ t.buf = s.buf ∧ t.v = s.v ∧ t.c = s.c ∧
      SameFaultRegisters s t ∧ t.cmdReady = false ∧ t.cfg = s.cfg)

/-- R14: every step answers a next state, and a word offered to a ready block completes as its command's
meaning says, leaving ST, FCMD and `cmd_ready` as they were, or takes a fault. -/
def Obligations.EveryCommandCompletesOrFaults : Prop :=
  (∀ s : State, ∃ t, step s = .next t) ∧
  (∀ (s : State) (cmd : Command) (rest : List HostEvent),
    s.host = .offer cmd :: rest → s.faulted = false →
    ∃ t, step s = .next t ∧ t.host = rest ∧
      ((SafeToIssue s cmd ∧ (∃ i, decode cmd = .instr i ∧ exec i { s with host := rest } = .next t) ∧
          SameFaultRegisters s t ∧ t.cmdReady = true) ∨
        ∃ cause, commandFault s.cfg s.v cmd = some cause ∧
          FaultTaken cause cmd { s with host := rest } t))

/-! ### Data movement -/

/-- R121: NOP. -/
def Obligations.NopChangesNothing : Prop :=
  (∀ s : State, exec .nop s = .next s) ∧
  (∀ cmd : Command, op cmd = 0x00 →
    decode cmd = if bits cmd.toNat 55 0 = 0 then .instr .nop else .reservedField) ∧
  decode 0 = .instr .nop ∧
  (∀ (s : State) (rest : List HostEvent), s.faulted = true → s.host = .offer 0 :: rest →
    ∃ t, step s = .next t ∧ t.buf = s.buf ∧ t.v = s.v ∧ t.c = s.c ∧ SameFaultRegisters s t)

/-- R122: SETVL writes V[31:0] and nothing else. -/
def Obligations.SetvlWritesLowHalf : Prop :=
  (∀ (imm32 : Word32) (s : State), ∃ t, exec (.setvl imm32) s = .next t ∧
    (∀ k, k < 32 → t.v.getLsbD k = imm32.getLsbD k) ∧
    (∀ k, 32 ≤ k → t.v.getLsbD k = s.v.getLsbD k) ∧
    SameBuf s t ∧ t.c = s.c ∧ SameFaultRegisters s t ∧ SameSurroundings s t) ∧
  (∀ cmd : Command, op cmd = 0x05 →
    decode cmd = if bits cmd.toNat 55 32 = 0
      then .instr (.setvl (BitVec.ofNat 32 (bits cmd.toNat 31 0))) else .reservedField)

/-- R123: SETVH writes V[63:32] and nothing else. -/
def Obligations.SetvhWritesHighHalf : Prop :=
  (∀ (imm32 : Word32) (s : State), ∃ t, exec (.setvh imm32) s = .next t ∧
    (∀ k, 32 ≤ k → t.v.getLsbD k = imm32.getLsbD (k - 32)) ∧
    (∀ k, k < 32 → t.v.getLsbD k = s.v.getLsbD k) ∧
    SameBuf s t ∧ t.c = s.c ∧ SameFaultRegisters s t ∧ SameSurroundings s t) ∧
  (∀ cmd : Command, op cmd = 0x06 →
    decode cmd = if bits cmd.toNat 55 32 = 0
      then .instr (.setvh (BitVec.ofNat 32 (bits cmd.toNat 31 0))) else .reservedField)

/-- R124: STB stores one byte, or faults past the end of BUF. -/
def Obligations.StbStoresOneByte : Prop :=
  (∀ (addr : Nat) (imm8 : Byte) (s : State), s.buf.wf →
    (addr < s.cfg.bufBytes → ∃ t, exec (.stb addr imm8) s = .next t ∧
      t.buf.read addr = imm8 ∧ (∀ a, a ≠ addr → t.buf.read a = s.buf.read a) ∧
      t.v = s.v ∧ t.c = s.c ∧ SameFaultRegisters s t ∧ SameSurroundings s t) ∧
    (s.cfg.bufBytes ≤ addr → TakesFault (.stb addr imm8) s .bufferBounds)) ∧
  (∀ cmd : Command, op cmd = 0x07 →
    decode cmd = if bits cmd.toNat 39 8 = 0
      then .instr (.stb (bits cmd.toNat 55 40) (BitVec.ofNat 8 (bits cmd.toNat 7 0)))
      else .reservedField)

/-- R125: LDB loads one byte into V, zero-extended, as UNPACK addr, 1, 7, 0 does, or faults past the end
of BUF. -/
def Obligations.LdbLoadsOneByte : Prop :=
  (∀ (addr : Nat) (s : State),
    (addr < s.cfg.bufBytes → ∃ t, exec (.ldb addr) s = .next t ∧
      t.v.toNat = (s.buf.read addr).toNat ∧
      SameBuf s t ∧ t.c = s.c ∧ SameFaultRegisters s t ∧ SameSurroundings s t ∧
      exec (.unpack addr 1 7 0) s = .next t) ∧
    (s.cfg.bufBytes ≤ addr → TakesFault (.ldb addr) s .bufferBounds)) ∧
  (∀ cmd : Command, op cmd = 0x08 →
    decode cmd = if bits cmd.toNat 39 0 = 0
      then .instr (.ldb (bits cmd.toNat 55 40)) else .reservedField)

/-- R114: MVCV copies C into V, zero-extended. -/
def Obligations.MvcvCopiesChecksum : Prop :=
  (∀ s : State, ∃ t, exec .mvcv s = .next t ∧ t.v.toNat = s.c.toNat ∧
    SameBuf s t ∧ t.c = s.c ∧ SameFaultRegisters s t ∧ SameSurroundings s t) ∧
  (∀ cmd : Command, op cmd = 0x09 →
    decode cmd = if bits cmd.toNat 55 0 = 0 then .instr .mvcv else .reservedField)

/-! ### The bit-field engine -/

/-- R82 and R83: PACK writes V[k - low] to bit k of the window for each k of the field and changes no
other bit of BUF; an oversized V faults in one mode and is cut in the other; operands that fail a check of
R81 (their order is FieldChecksInOrder) take its fault. -/
def Obligations.PackWritesField : Prop :=
  (∀ (base wbytes high low : Nat) (s : State), s.buf.wf →
    FieldInWindow s.cfg base wbytes high low →
    (FitsField s.cfg s.v high low → ∃ t, exec (.pack base wbytes high low) s = .next t ∧
      (∀ k, low ≤ k → k ≤ high → windowBit t.buf base wbytes k = s.v.getLsbD (k - low)) ∧
      (∀ a i, i < 8 →
        (∀ k, low ≤ k → k ≤ high → ¬ (a = bitAddress base wbytes k ∧ i = k % 8)) →
        (t.buf.read a).getLsbD i = (s.buf.read a).getLsbD i) ∧
      (∀ a, a < bitAddress base wbytes high ∨ bitAddress base wbytes low < a →
        t.buf.read a = s.buf.read a) ∧
      t.v = s.v ∧ t.c = s.c ∧ SameFaultRegisters s t ∧ SameSurroundings s t) ∧
    (s.cfg.overflowMode = .fault → high - low + 1 < 64 → 2 ^ (high - low + 1) ≤ s.v.toNat →
      TakesFault (.pack base wbytes high low) s .valueOverflow)) ∧
  (∀ (base wbytes high low : Nat) (s : State), ¬ FieldInWindow s.cfg base wbytes high low →
    ∃ cause ∈ fieldCauses, TakesFault (.pack base wbytes high low) s cause) ∧
  (∀ cmd : Command, op cmd = 0x01 →
    decode cmd = .instr (.pack (bits cmd.toNat 55 40) (bits cmd.toNat 39 32)
      (bits cmd.toNat 31 16) (bits cmd.toNat 15 0)))

/-- R84: UNPACK reads the field into V, every bit of V above the field 0. -/
def Obligations.UnpackReadsField : Prop :=
  (∀ (base wbytes high low : Nat) (s : State), FieldInWindow s.cfg base wbytes high low →
    ∃ t, exec (.unpack base wbytes high low) s = .next t ∧
      (∀ j, j < high - low + 1 → t.v.getLsbD j = windowBit s.buf base wbytes (low + j)) ∧
      (∀ j, high - low + 1 ≤ j → t.v.getLsbD j = false) ∧
      SameBuf s t ∧ t.c = s.c ∧ SameFaultRegisters s t ∧ SameSurroundings s t) ∧
  (∀ (base wbytes high low : Nat) (s : State), ¬ FieldInWindow s.cfg base wbytes high low →
    ∃ cause ∈ fieldCauses, TakesFault (.unpack base wbytes high low) s cause) ∧
  (∀ cmd : Command, op cmd = 0x02 →
    decode cmd = .instr (.unpack (bits cmd.toNat 55 40) (bits cmd.toNat 39 32)
      (bits cmd.toNat 31 16) (bits cmd.toNat 15 0)))

/-- R86: ZERO clears its range and no other byte, or faults and clears nothing. -/
def Obligations.ZeroClearsRange : Prop :=
  (∀ (base len : Nat) (s : State), s.buf.wf →
    (base + len ≤ s.cfg.bufBytes → ∃ t, exec (.zero base len) s = .next t ∧
      (∀ a, base ≤ a → a < base + len → t.buf.read a = 0) ∧
      (∀ a, a < base ∨ base + len ≤ a → t.buf.read a = s.buf.read a) ∧
      t.v = s.v ∧ t.c = s.c ∧ SameFaultRegisters s t ∧ SameSurroundings s t) ∧
    (s.cfg.bufBytes < base + len → TakesFault (.zero base len) s .bufferBounds)) ∧
  (∀ cmd : Command, op cmd = 0x03 →
    decode cmd = if bits cmd.toNat 39 32 = 0
      then .instr (.zero (bits cmd.toNat 55 40) (bits cmd.toNat 31 0)) else .reservedField)

/-- R81: the operand checks of PACK and UNPACK, in order, the first that fails deciding the cause. -/
def Obligations.FieldChecksInOrder : Prop :=
  ∀ (base wbytes high low : Nat) (s : State) (i : Instr),
    i = .pack base wbytes high low ∨ i = .unpack base wbytes high low →
    (wbytes = 0 → TakesFault i s .windowZero) ∧
    (wbytes ≠ 0 → s.cfg.bufBytes < base + wbytes → TakesFault i s .bufferBounds) ∧
    (wbytes ≠ 0 → base + wbytes ≤ s.cfg.bufBytes → high < low → TakesFault i s .bitOrder) ∧
    (wbytes ≠ 0 → base + wbytes ≤ s.cfg.bufBytes → low ≤ high → 8 * wbytes - 1 < high →
      TakesFault i s .bitRange) ∧
    (wbytes ≠ 0 → base + wbytes ≤ s.cfg.bufBytes → low ≤ high → high ≤ 8 * wbytes - 1 →
      64 < high - low + 1 → TakesFault i s .fieldWidth)

/-- R45: every command that names bytes past the end of BUF faults with BufferBounds and touches nothing,
and an empty range at the very end passes. -/
def Obligations.BoundsAreChecked : Prop :=
  ∀ s : State,
    (∀ base wbytes high low, 1 ≤ wbytes → s.cfg.bufBytes < base + wbytes →
      TakesFault (.pack base wbytes high low) s .bufferBounds ∧
      TakesFault (.unpack base wbytes high low) s .bufferBounds) ∧
    (∀ base len, s.cfg.bufBytes < base + len →
      TakesFault (.zero base len) s .bufferBounds ∧ TakesFault (.crc base len) s .bufferBounds) ∧
    (∀ addr imm8, s.cfg.bufBytes ≤ addr →
      TakesFault (.stb addr imm8) s .bufferBounds ∧ TakesFault (.ldb addr) s .bufferBounds) ∧
    exec (.zero s.cfg.bufBytes 0) s = .next s ∧
    (∃ t, exec (.crc s.cfg.bufBytes 0) s = .next t ∧ SameBuf s t ∧ t.v = s.v ∧
      SameFaultRegisters s t)

/-- R85 (a): what PACK wrote, UNPACK returns, cut to the field. -/
def Obligations.PackThenUnpackReturnsValue : Prop :=
  ∀ (base wbytes high low : Nat) (s : State), s.buf.wf →
    FieldInWindow s.cfg base wbytes high low → FitsField s.cfg s.v high low →
    ∃ t u, exec (.pack base wbytes high low) s = .next t ∧
      exec (.unpack base wbytes high low) t = .next u ∧
      u.v.toNat = s.v.toNat % 2 ^ (high - low + 1) ∧
      (s.v.toNat < 2 ^ (high - low + 1) → u.v = s.v) ∧ u.buf = t.buf

/-- R85 (b): UNPACK then PACK of the same field leaves BUF as it was, in either overflow mode. -/
def Obligations.UnpackThenPackRestoresBuf : Prop :=
  ∀ (base wbytes high low : Nat) (s : State), s.buf.wf →
    FieldInWindow s.cfg base wbytes high low →
    ∃ t u, exec (.unpack base wbytes high low) s = .next t ∧
      exec (.pack base wbytes high low) t = .next u ∧ u.buf = s.buf

/-- R85 (c): a PACK does not change what an UNPACK of a disjoint field, in any window, returns. -/
def Obligations.PackIsLocal : Prop :=
  ∀ (base wbytes high low base' wbytes' high' low' : Nat) (s : State), s.buf.wf →
    FieldInWindow s.cfg base wbytes high low → FieldInWindow s.cfg base' wbytes' high' low' →
    FitsField s.cfg s.v high low →
    FieldsDisjoint base wbytes high low base' wbytes' high' low' →
    ∃ t u u', exec (.pack base wbytes high low) s = .next t ∧
      exec (.unpack base' wbytes' high' low') s = .next u ∧
      exec (.unpack base' wbytes' high' low') t = .next u' ∧ u'.v = u.v

/-- R85 (d): PACKs of disjoint fields, with any two values of V, give the same BUF in either order. -/
def Obligations.DisjointPacksCommute : Prop :=
  ∀ (base wbytes high low base' wbytes' high' low' : Nat) (v v' : Word64) (s : State), s.buf.wf →
    FieldInWindow s.cfg base wbytes high low → FieldInWindow s.cfg base' wbytes' high' low' →
    FitsField s.cfg v high low → FitsField s.cfg v' high' low' →
    FieldsDisjoint base wbytes high low base' wbytes' high' low' →
    ∃ t t' u u', exec (.pack base wbytes high low) { s with v := v } = .next t ∧
      exec (.pack base' wbytes' high' low') { t with v := v' } = .next t' ∧
      exec (.pack base' wbytes' high' low') { s with v := v' } = .next u ∧
      exec (.pack base wbytes high low) { u with v := v } = .next u' ∧ t'.buf = u'.buf

/-- R43 and R57: a field packed through one window is read back through any other window that covers it,
its positions shifted by 8 bits for each byte between the windows' last bytes. -/
def Obligations.PackOneWindowUnpackAnother : Prop :=
  ∀ (base wbytes high low base' wbytes' high' low' : Nat) (s : State), s.buf.wf →
    FieldInWindow s.cfg base wbytes high low → FieldInWindow s.cfg base' wbytes' high' low' →
    FitsField s.cfg s.v high low →
    high' + 8 * (base + wbytes) = high + 8 * (base' + wbytes') →
    low' + 8 * (base + wbytes) = low + 8 * (base' + wbytes') →
    ∃ t u, exec (.pack base wbytes high low) s = .next t ∧
      exec (.unpack base' wbytes' high' low') t = .next u ∧
      u.v.toNat = s.v.toNat % 2 ^ (high - low + 1)

/-- R87, PACK: the byte-wise form gives the bytes of the window PACK writes. -/
def Obligations.PackBytewiseForm : Prop :=
  ∀ (base wbytes high low : Nat) (s : State), s.buf.wf →
    FieldInWindow s.cfg base wbytes high low → FitsField s.cfg s.v high low →
    ∃ t, exec (.pack base wbytes high low) s = .next t ∧
      ∀ a, (t.buf.read a).toNat =
        if base + wbytes - 1 - high / 8 ≤ a ∧ a ≤ base + wbytes - 1 - low / 8 then
          packByte (s.buf.read a).toNat s.v.toNat (base + wbytes - 1) high low a
        else (s.buf.read a).toNat

/-- R87, UNPACK: the byte-wise accumulator, over the field's bytes in ascending address, is V. -/
def Obligations.UnpackBytewiseForm : Prop :=
  ∀ (base wbytes high low : Nat) (s : State), FieldInWindow s.cfg base wbytes high low →
    ∃ t, exec (.unpack base wbytes high low) s = .next t ∧
      t.v.toNat = unpackBytes s.buf (base + wbytes - 1) high low 0
        (base + wbytes - 1 - high / 8) (high / 8 - low / 8 + 1)

/-! ### The checksum unit -/

/-- R105: under `ascending` CRC puts the checksum of its bytes, in ascending address, in C. -/
def Obligations.CrcAscendingRange : Prop :=
  (∀ (base len : Nat) (s : State), s.cfg.crcFeed = .ascending →
    (base + len ≤ s.cfg.bufBytes → ∃ t, exec (.crc base len) s = .next t ∧
      t.c = crc32 ((List.range len).map fun i => s.buf.read (base + i)) ∧
      SameBuf s t ∧ t.v = s.v ∧ SameFaultRegisters s t ∧ SameSurroundings s t) ∧
    (s.cfg.bufBytes < base + len → TakesFault (.crc base len) s .bufferBounds)) ∧
  (∀ cmd : Command, op cmd = 0x04 →
    decode cmd = if bits cmd.toNat 39 32 = 0
      then .instr (.crc (bits cmd.toNat 55 40) (bits cmd.toNat 31 0)) else .reservedField)

/-- R106: under `word32_reversed` the bytes of each group of four enter in descending address, a length
that is no multiple of 4 faults, and groups that are palindromes make the two orders agree. -/
def Obligations.CrcReversedGroups : Prop :=
  ∀ (base len : Nat) (s : State), s.cfg.crcFeed = .word32Reversed → base + len ≤ s.cfg.bufBytes →
    (len % 4 = 0 → ∃ t, exec (.crc base len) s = .next t ∧
      t.c = crc32 ((List.range len).map fun i => s.buf.read (base + 4 * (i / 4) + (3 - i % 4))) ∧
      SameBuf s t ∧ t.v = s.v ∧ SameFaultRegisters s t ∧ SameSurroundings s t ∧
      ((∀ g, g < len / 4 → s.buf.read (base + 4 * g) = s.buf.read (base + 4 * g + 3) ∧
          s.buf.read (base + 4 * g + 1) = s.buf.read (base + 4 * g + 2)) →
        t.c = crc32 ((List.range len).map fun i => s.buf.read (base + i)))) ∧
    (len % 4 ≠ 0 → TakesFault (.crc base len) s .crcLength)

/-- 41_crc.md section 2 (its constants: log entry 8): the checksum of the empty sequence is 0, and CRC of
an empty range puts it in C. -/
def Obligations.CrcEmptyRange : Prop :=
  crc32 [] = 0x00000000 ∧
  ∀ (base : Nat) (s : State), base ≤ s.cfg.bufBytes →
    exec (.crc base 0) s = .next { s with c := 0x00000000 }

/-- The bit-serial definition of 41_crc.md section 1: the model's checksum is that loop, on natural numbers
that stay below 2^32. Its constants are the spec's general knowledge (log entry 8). -/
def Obligations.CrcIsBitSerial : Prop :=
  (∀ l : List Byte,
    (crc32 l).toNat = natRegister 0xFFFFFFFF l ^^^ 0xFFFFFFFF ∧ natRegister 0xFFFFFFFF l < 2 ^ 32) ∧
  ∀ r : Nat, r < 2 ^ 32 → natShift r < 2 ^ 32

/-- The table of parameters in 41_crc.md section 1, with the reflected polynomial the mirror of the normal
form, and the check value. The numbers are the spec's general knowledge (log entry 8). -/
def Obligations.CrcParameters : Prop :=
  crcPoly = 0xEDB88320 ∧ crcPoly.reverse = 0x04C11DB7 ∧
  (∀ k, k < 32 → ((0x04C11DB7 : Word32).getLsbD k = true ↔
    k ∈ [26, 23, 22, 16, 12, 11, 10, 8, 7, 5, 4, 2, 1, 0])) ∧
  crcRegister [] = 0xFFFFFFFF ∧ crcOnes = 0xFFFFFFFF ∧
  crc32 [0x31, 0x32, 0x33, 0x34, 0x35, 0x36, 0x37, 0x38, 0x39] = 0xCBF43926

/-- 41_crc.md section 1, the table form: one byte step by table (constants: log entry 8). -/
def Obligations.CrcTableForm : Prop :=
  (∀ (r : Word32) (b : Byte),
    crcByte r b = (r >>> 8) ^^^ crcTable ((r ^^^ b.setWidth 32).toNat % 256)) ∧
  crcTable 0 = 0x00000000 ∧ crcTable 1 = 0x77073096 ∧ crcTable 2 = 0xEE0E612C ∧
  crcTable 3 = 0x990951BA ∧ crcTable 8 = 0x0EDB8832 ∧ crcTable 16 = 0x1DB71064 ∧
  crcTable 128 = 0xEDB88320 ∧ crcTable 255 = 0x2D02EF8D

/-- 41_crc.md section 2, single-bit sensitivity (constants: log entry 8): two byte sequences of one length
that differ in exactly one bit have different checksums. -/
def Obligations.CrcSingleBitSensitivity : Prop :=
  ∀ (pre post : List Byte) (b : Byte) (k : Nat), k < 8 →
    crc32 (pre ++ b :: post) ≠ crc32 (pre ++ (b ^^^ BitVec.twoPow 8 k) :: post)

/-- 41_crc.md section 2: the checksum is affine over GF(2) (constants: log entry 8). -/
def Obligations.CrcIsAffine : Prop :=
  ∀ x y z : List Byte, x.length = y.length → y.length = z.length →
    crc32 (List.zipWith (· ^^^ ·) (List.zipWith (· ^^^ ·) x y) z) = crc32 x ^^^ crc32 y ^^^ crc32 z

/-- 41_crc.md section 2 (constants: log entry 8): the message followed by its checksum, least significant
byte first, has a fixed residue. -/
def Obligations.CrcResidue : Prop :=
  ∀ l : List Byte,
    crcRegister (l ++ [(crc32 l).extractLsb' 0 8, (crc32 l).extractLsb' 8 8,
      (crc32 l).extractLsb' 16 8, (crc32 l).extractLsb' 24 8]) = 0xDEBB20E3 ∧
    crc32 (l ++ [(crc32 l).extractLsb' 0 8, (crc32 l).extractLsb' 8 8,
      (crc32 l).extractLsb' 16 8, (crc32 l).extractLsb' 24 8]) = 0x2144DF1C

/-- R115: MVCV then PACK base, 4, 31, 0 stores the checksum big-endian. -/
def Obligations.StoredChecksumIsBigEndian : Prop :=
  ∀ (base : Nat) (s : State), s.buf.wf → base + 4 ≤ s.cfg.bufBytes →
    ∃ t u, exec .mvcv s = .next t ∧ exec (.pack base 4 31 0) t = .next u ∧
      u.buf.read base = s.c.extractLsb' 24 8 ∧ u.buf.read (base + 1) = s.c.extractLsb' 16 8 ∧
      u.buf.read (base + 2) = s.c.extractLsb' 8 8 ∧ u.buf.read (base + 3) = s.c.extractLsb' 0 8 ∧
      ∀ a, a < base ∨ base + 4 ≤ a → u.buf.read a = s.buf.read a

/-! ### Encoding -/

/-- Decode and encode agree, one way: a well-formed command survives its encoding. -/
def Obligations.DecodeOfEncode : Prop :=
  ∀ i : Instr, i.WellFormed → decode (encode i) = .instr i

/-- Decode and encode agree, the other way: a word that decodes to a command is that command's word, and
the command is well-formed. So the word a fault records through `encode` is the word that was issued. -/
def Obligations.EncodeOfDecode : Prop :=
  ∀ (cmd : Command) (i : Instr), decode cmd = .instr i → encode i = cmd ∧ i.WellFormed

/-- spec/opcode_table.json: the row a word selects by mask and match decides what it decodes to, a word
that selects no row is an illegal opcode, and no word selects two rows. -/
def Obligations.DecodeAgreesWithOpcodeTable : Prop :=
  (∀ (cmd : Command) (row : Row), row ∈ opcodeTable →
    cmd &&& 0xFF00000000000000 = row.matchWord →
    (cmd &&& row.reservedMask = 0 → ∃ i, decode cmd = .instr i ∧ row.isInstr i) ∧
    (cmd &&& row.reservedMask ≠ 0 → decode cmd = .reservedField)) ∧
  (∀ cmd : Command, (∀ row ∈ opcodeTable, cmd &&& 0xFF00000000000000 ≠ row.matchWord) →
    decode cmd = .illegalOpcode) ∧
  opcodeTable.Pairwise fun a b => a.matchWord ≠ b.matchWord

/-! ### Faults, invariants, and rules of the whole machine -/

/-- The invariant holds after reset for every legal parameter value and every content of BUF, and so does
the account of a fault. -/
def Obligations.InvariantHoldsAtReset : Prop :=
  ∀ (cfg : Config) (content : List Byte), cfg.Legal →
    (State.launch cfg content).Inv ∧ (State.launch cfg content).FaultExplained ∧
    State.reset.Inv ∧ State.reset.FaultExplained

/-- R25 and R26 as an invariant every step keeps, with BUF canonical and inside its size (R29) and the
parameters legal (R7). -/
def Obligations.StepKeepsInvariant : Prop :=
  ∀ s t : State, s.Inv → step s = .next t → t.Inv

/-- R142, R147 and R149 as an invariant every step keeps: FCMD, V and the parameters still explain the
cause in ST. -/
def Obligations.StepKeepsFaultExplained : Prop :=
  ∀ s t : State, s.FaultExplained → step s = .next t → t.FaultExplained

/-- R143 and R142 with the table of R141: of the conditions a word meets, the one of least code is
reported, with the whole word in FCMD; a word that meets none completes. -/
def Obligations.OneCauseInPriorityOrder : Prop :=
  ([.illegalOpcode, .reservedField, .windowZero, .bufferBounds, .bitOrder, .bitRange, .fieldWidth,
    .valueOverflow, .crcLength].map causeCode = [1, 2, 3, 4, 5, 6, 7, 8, 9]) ∧
  ∀ (s : State) (cmd : Command) (rest : List HostEvent),
    s.host = .offer cmd :: rest → s.faulted = false →
    (∀ cause, Violates s.cfg s.v cmd cause →
      (∀ other, Violates s.cfg s.v cmd other → causeCode cause ≤ causeCode other) →
      ∃ t, step s = .next t ∧ FaultTaken cause cmd { s with host := rest } t) ∧
    ((∀ cause, ¬ Violates s.cfg s.v cmd cause) →
      ∃ t, step s = .next t ∧ t.faulted = false ∧ SameFaultRegisters s t)

/-- R144: when a step faults, BUF, V and C are exactly as the command before left them. -/
def Obligations.FaultsArePrecise : Prop :=
  ∀ s t : State, s.faulted = false → step s = .next t → t.faulted = true →
    t.buf = s.buf ∧ t.v = s.v ∧ t.c = s.c

/-- R146: no command clears ST.FAULT; a step out of the faulted state is `rst`, and `rst` discards V, C
and the record of the fault. -/
def Obligations.OnlyRstLeavesFaultedState : Prop :=
  (∀ s t : State, s.faulted = true → step s = .next t → t.faulted = false → RstNext s) ∧
  (∀ s : State, s.faulted = true → RstNext s →
    ∃ t, step s = .next t ∧ t.faulted = false ∧ t.cause = 0 ∧ t.fcmd = 0 ∧ t.v = 0 ∧ t.c = 0)

/-- R21: a step that changes C is `rst` or issues CRC. -/
def Obligations.OnlyCrcWritesC : Prop :=
  ∀ s t : State, step s = .next t → t.c ≠ s.c →
    RstNext s ∨ ∃ cmd, IssueNext s cmd ∧ op cmd = 0x04

/-- R20: a step that changes V is `rst` or issues UNPACK, SETVL, SETVH, LDB or MVCV; SETVL changes only
the low half and SETVH only the high half. -/
def Obligations.OnlyListedCommandsWriteV : Prop :=
  ∀ s t : State, step s = .next t → t.v ≠ s.v →
    RstNext s ∨ ∃ cmd, IssueNext s cmd ∧
      (op cmd = 0x02 ∨ (op cmd = 0x05 ∧ ∀ k, 32 ≤ k → t.v.getLsbD k = s.v.getLsbD k) ∨
        (op cmd = 0x06 ∧ ∀ k, k < 32 → t.v.getLsbD k = s.v.getLsbD k) ∨
        op cmd = 0x08 ∨ op cmd = 0x09)

/-- R29: a step that changes BUF is `rst` or issues PACK, ZERO or STB. -/
def Obligations.OnlyPackZeroStbWriteBuf : Prop :=
  ∀ s t : State, step s = .next t → t.buf ≠ s.buf →
    RstNext s ∨ ∃ cmd, IssueNext s cmd ∧ (op cmd = 0x01 ∨ op cmd = 0x03 ∨ op cmd = 0x07)

/-- R25 and R26: a step that changes ST or FCMD is `rst` or a command that faults. -/
def Obligations.OnlyFaultAndRstWriteStatus : Prop :=
  ∀ s t : State, step s = .next t → t.st ≠ s.st ∨ t.fcmd ≠ s.fcmd →
    RstNext s ∨ ∃ cmd cause, IssueNext s cmd ∧ commandFault s.cfg s.v cmd = some cause ∧
      t.faulted = true ∧ t.cause = causeCode cause ∧ t.fcmd = cmd

/-- R27 and R162: no step changes the parameters, so the byte order and the feed cannot be switched. -/
def Obligations.StepKeepsParameters : Prop :=
  ∀ s t : State, step s = .next t → t.cfg = s.cfg

/-- R46: the bytes each command writes, and that nothing it does depends on a byte it does not read. -/
def Obligations.BytesEachCommandTouches : Prop :=
  (∀ (i : Instr) (s t : State), s.buf.wf → exec i s = .next t →
    ∀ a, ¬ WritesByte i a → t.buf.read a = s.buf.read a) ∧
  (∀ (i : Instr) (s : State) (other : Memory) (t t' : State), s.buf.wf → other.wf →
    (∀ a, ReadsByte i a → other.read a = s.buf.read a) →
    exec i s = .next t → exec i { s with buf := other } = .next t' →
    t'.v = t.v ∧ t'.c = t.c ∧ t'.st = t.st ∧ t'.fcmd = t.fcmd ∧
      (t.faulted = false → ∀ a, WritesByte i a → t'.buf.read a = t.buf.read a))

/-- R48: a command that reads or writes BUF, issued twice in a row, leaves the state the first left. -/
def Obligations.RepeatedCommandChangesNothing : Prop :=
  ∀ (i : Instr) (s t : State), s.buf.wf →
    ((∃ b w h l, i = .pack b w h l) ∨ (∃ b w h l, i = .unpack b w h l) ∨
      (∃ b n, i = .zero b n) ∨ (∃ b n, i = .crc b n) ∨ (∃ a x, i = .stb a x) ∨ ∃ a, i = .ldb a) →
    exec i s = .next t → exec i t = .next t

/-- R83 and R151: a step that does not fault under `PACK_OVERFLOW_MODE = fault` does the same under
`truncate`, so what is proved of a run without faults under `fault` holds under `truncate`. -/
def Obligations.TruncateAgreesWithFaultMode : Prop :=
  ∀ s t : State, s.cfg.overflowMode = .fault → step s = .next t → t.faulted = false →
    step (truncating s) = .next (truncating t)

/-- R76: SETV by its expansion, in either order (R122), and PACKB as the STB of V's low byte. -/
def Obligations.PseudoInstructionEquivalences : Prop :=
  (∀ (imm64 : Word64) (s : State), ∃ t u t' u',
    exec (.setvh (imm64.extractLsb' 32 32)) s = .next t ∧
    exec (.setvl (imm64.extractLsb' 0 32)) t = .next u ∧ u.v = imm64 ∧
    exec (.setvl (imm64.extractLsb' 0 32)) s = .next t' ∧
    exec (.setvh (imm64.extractLsb' 32 32)) t' = .next u' ∧ u' = u) ∧
  (∀ (base : Nat) (s : State), s.buf.wf → base < s.cfg.bufBytes → s.v.toNat < 256 →
    exec (.pack base 1 7 0) s = exec (.stb base (s.v.extractLsb' 0 8)) s)

/-- R23 and R164: a run of a list of words is the fold of the step over it, and from the first fault on
the rest of the list changes nothing. The list of words and its empty end are the model's choice: the
host's actions are a list (log entry 4), and an offer that is not accepted is taken off it (log entry 6,
DESIGN CHOICE), so the run ends with nothing left to do after a fault too. -/
def Obligations.RunFoldsTheCommandList : Prop :=
  ∀ (cmds : List Command) (s : State), s.host = cmds.map .offer →
    Sys2Proof.core.run cmds.length s = .next (cmds.foldl afterOffer { s with host := [] }) ∧
    ∀ pre post, cmds = pre ++ post →
      (pre.foldl afterOffer { s with host := [] }).faulted = true →
      cmds.foldl afterOffer { s with host := [] } = pre.foldl afterOffer { s with host := [] }
end

