-- ==== Sys2Proof/Laws/State.lean ====
section
/-! SUPPORT. One lemma per field per update of the state, so that no later proof unfolds an update; and
what the accessors of ST say of a raised fault. -/

namespace Sys2Proof.Machine

@[simp] theorem raise_cfg (k : Cause) (w : Command) (s : State) : (raise k w s).cfg = s.cfg := rfl
@[simp] theorem raise_buf (k : Cause) (w : Command) (s : State) : (raise k w s).buf = s.buf := rfl
@[simp] theorem raise_v (k : Cause) (w : Command) (s : State) : (raise k w s).v = s.v := rfl
@[simp] theorem raise_c (k : Cause) (w : Command) (s : State) : (raise k w s).c = s.c := rfl
@[simp] theorem raise_st (k : Cause) (w : Command) (s : State) : (raise k w s).st = faultStatus k := rfl
@[simp] theorem raise_fcmd (k : Cause) (w : Command) (s : State) : (raise k w s).fcmd = w := rfl
@[simp] theorem raise_host (k : Cause) (w : Command) (s : State) : (raise k w s).host = s.host := rfl

@[simp] theorem applyReset_cfg (l : List Byte) (s : State) : (applyReset l s).cfg = s.cfg := rfl
@[simp] theorem applyReset_buf (l : List Byte) (s : State) :
    (applyReset l s).buf = Memory.ofBytes 0 (l.take s.cfg.bufBytes) := rfl
@[simp] theorem applyReset_v (l : List Byte) (s : State) : (applyReset l s).v = 0 := rfl
@[simp] theorem applyReset_c (l : List Byte) (s : State) : (applyReset l s).c = 0 := rfl
@[simp] theorem applyReset_st (l : List Byte) (s : State) : (applyReset l s).st = 0 := rfl
@[simp] theorem applyReset_fcmd (l : List Byte) (s : State) : (applyReset l s).fcmd = 0 := rfl
@[simp] theorem applyReset_host (l : List Byte) (s : State) : (applyReset l s).host = s.host := rfl

@[simp] theorem offerFirst_cfg (w : Command) (s : State) : (offerFirst w s).cfg = s.cfg := rfl
@[simp] theorem offerFirst_buf (w : Command) (s : State) : (offerFirst w s).buf = s.buf := rfl
@[simp] theorem offerFirst_v (w : Command) (s : State) : (offerFirst w s).v = s.v := rfl
@[simp] theorem offerFirst_c (w : Command) (s : State) : (offerFirst w s).c = s.c := rfl
@[simp] theorem offerFirst_st (w : Command) (s : State) : (offerFirst w s).st = s.st := rfl
@[simp] theorem offerFirst_fcmd (w : Command) (s : State) : (offerFirst w s).fcmd = s.fcmd := rfl
@[simp] theorem offerFirst_host (w : Command) (s : State) :
    (offerFirst w s).host = .offer w :: s.host := rfl

/-- A cause code is one of 1 to 9 (R141). -/
theorem causeCode_range (k : Cause) : 1 ≤ causeCode k ∧ causeCode k ≤ 9 := by cases k <;> decide

/-- Two causes with one code are one cause. -/
theorem causeCode_injective {j k : Cause} (h : causeCode j = causeCode k) : j = k := by
  cases j <;> cases k <;> first | rfl | exact absurd h (by decide)

/-- The three fields of the ST a fault writes (R142, R25). -/
theorem faultStatus_fields (k : Cause) :
    (faultStatus k).getLsbD 0 = true ∧ bits (faultStatus k).toNat 4 1 = causeCode k ∧
      bits (faultStatus k).toNat 7 5 = 0 := by cases k <;> decide

@[simp] theorem raise_faulted (k : Cause) (w : Command) (s : State) :
    (raise k w s).faulted = true := (faultStatus_fields k).1

@[simp] theorem raise_cause (k : Cause) (w : Command) (s : State) :
    (raise k w s).cause = causeCode k := (faultStatus_fields k).2.1

@[simp] theorem raise_stReserved (k : Cause) (w : Command) (s : State) :
    (raise k w s).stReserved = 0 := (faultStatus_fields k).2.2

@[simp] theorem raise_cmdReady (k : Cause) (w : Command) (s : State) :
    (raise k w s).cmdReady = false := by simp [State.cmdReady]

@[simp] theorem applyReset_faulted (l : List Byte) (s : State) :
    (applyReset l s).faulted = false := by simp [State.faulted]

@[simp] theorem applyReset_cause (l : List Byte) (s : State) : (applyReset l s).cause = 0 := by
  simp [State.cause, bits]

@[simp] theorem applyReset_stReserved (l : List Byte) (s : State) :
    (applyReset l s).stReserved = 0 := by simp [State.stReserved, bits]

@[simp] theorem applyReset_cmdReady (l : List Byte) (s : State) :
    (applyReset l s).cmdReady = true := by simp [State.cmdReady]

/-- The bits of `hi ‖ lo` (R10). -/
theorem joinHalves_getLsbD (hi lo : Word32) (k : Nat) :
    (joinHalves hi lo).getLsbD k = if k < 32 then lo.getLsbD k else hi.getLsbD (k - 32) := by
  have := BitVec.getLsbD_append (x := hi) (y := lo) (i := k)
  rw [joinHalves, this]

theorem highHalf_getLsbD (v : Word64) (k : Nat) : (highHalf v).getLsbD k = v.getLsbD (32 + k) := by
  rw [highHalf, BitVec.getLsbD_extractLsb']
  by_cases h : k < 32
  · simp [h]
  · rw [BitVec.getLsbD_of_ge v (32 + k) (by omega)]; simp

theorem lowHalf_getLsbD (v : Word64) (k : Nat) :
    (lowHalf v).getLsbD k = (decide (k < 32) && v.getLsbD k) := by
  rw [lowHalf, BitVec.getLsbD_extractLsb', Nat.zero_add]

/-- All `raise` can do (R145): it takes the fault and changes nothing else. -/
theorem raise_faultTaken (k : Cause) (w : Command) (s : State) : FaultTaken k w s (raise k w s) :=
  ⟨by simp, by simp, by simp, rfl, by simp, fun _ => rfl, rfl, rfl, rfl, rfl⟩

end Sys2Proof.Machine
end

