-- ==== Sys2Proof/Laws/Crc.lean ====
section
/-! SUPPORT. The checksum register as a linear map over GF(2) that loses nothing (spec/41_crc.md R102):
what each turn of the two loops does to an exclusive-or, and that no turn maps two registers to one. -/

namespace Sys2Proof.Machine

theorem crcShift_getLsbD (r : Word32) (i : Nat) :
    (crcShift r).getLsbD i =
      (((r >>> 1).getLsbD i) ^^ (r.getLsbD 0 && crcPoly.getLsbD i)) := by
  unfold crcShift
  cases h : r.getLsbD 0
  · simp only [Bool.false_eq_true, if_false, Bool.false_and, Bool.xor_false]
  · simp only [if_true, Bool.true_and, BitVec.getLsbD_xor]

/-- One turn of the inner loop is linear. -/
theorem crcShift_xor (a b : Word32) : crcShift (a ^^^ b) = crcShift a ^^^ crcShift b := by
  refine BitVec.eq_of_getLsbD_eq fun i hi => ?_
  simp only [crcShift_getLsbD, BitVec.getLsbD_xor, BitVec.getLsbD_ushiftRight]
  cases a.getLsbD 0 <;> cases b.getLsbD 0 <;> cases crcPoly.getLsbD i <;>
    cases a.getLsbD (1 + i) <;> cases b.getLsbD (1 + i) <;> rfl

/-- One turn of the inner loop loses nothing: bit 31 of the result is the bit shifted out. -/
theorem crcShift_injective {a b : Word32} (h : crcShift a = crcShift b) : a = b := by
  have h31 := congrArg (fun x => BitVec.getLsbD x 31) h
  simp only [crcShift_getLsbD, BitVec.getLsbD_ushiftRight] at h31
  rw [BitVec.getLsbD_of_ge a (1 + 31) (by omega), BitVec.getLsbD_of_ge b (1 + 31) (by omega)] at h31
  rw [show crcPoly.getLsbD 31 = true by decide] at h31
  have h0 : a.getLsbD 0 = b.getLsbD 0 := by
    simpa only [Bool.and_true, Bool.false_xor] using h31
  refine BitVec.eq_of_getLsbD_eq fun i hi => ?_
  cases i with
  | zero => exact h0
  | succ i =>
    have := congrArg (fun x => BitVec.getLsbD x i) h
    simp only [crcShift_getLsbD, BitVec.getLsbD_ushiftRight, h0, Nat.add_comm 1 i] at this
    simpa using this

theorem crcShift8_eq (r : Word32) :
    crcShift8 r =
      crcShift (crcShift (crcShift (crcShift (crcShift (crcShift (crcShift (crcShift r))))))) := rfl

theorem crcShift8_xor (a b : Word32) : crcShift8 (a ^^^ b) = crcShift8 a ^^^ crcShift8 b := by
  simp only [crcShift8_eq, crcShift_xor]

theorem crcShift8_injective {a b : Word32} (h : crcShift8 a = crcShift8 b) : a = b := by
  simp only [crcShift8_eq] at h
  exact crcShift_injective (crcShift_injective (crcShift_injective (crcShift_injective
    (crcShift_injective (crcShift_injective (crcShift_injective (crcShift_injective h)))))))

/-- One turn of the outer loop is linear in the register and the byte together. -/
theorem crcByte_xor (r r' : Word32) (b b' : Byte) :
    crcByte (r ^^^ r') (b ^^^ b') = crcByte r b ^^^ crcByte r' b' := by
  rw [crcByte, crcByte, crcByte, ← crcShift8_xor, BitVec.setWidth_xor]
  congr 1
  ac_rfl

/-- Two registers that take in the same byte and agree afterwards agreed before. -/
theorem crcByte_injective_register {r r' : Word32} {b : Byte} (h : crcByte r b = crcByte r' b) :
    r = r' := by
  have := crcShift8_injective h
  have h2 := congrArg (· ^^^ b.setWidth 32) this
  simpa [BitVec.xor_assoc] using h2

/-- Two bytes that bring one register to the same value are one byte. -/
theorem crcByte_injective_byte {r : Word32} {b b' : Byte} (h : crcByte r b = crcByte r b') :
    b = b' := by
  have := crcShift8_injective h
  have h2 : b.setWidth 32 = b'.setWidth 32 := by
    have := congrArg (r ^^^ ·) this
    simpa [← BitVec.xor_assoc] using this
  refine BitVec.eq_of_getLsbD_eq fun i hi => ?_
  have := congrArg (fun x => BitVec.getLsbD x i) h2
  simpa [show i < 32 by omega] using this

@[simp] theorem crcRegister_nil : crcRegister [] = crcOnes := rfl

/-- The register after one more byte. -/
theorem crcRegister_append_singleton (l : List Byte) (b : Byte) :
    crcRegister (l ++ [b]) = crcByte (crcRegister l) b := by simp [crcRegister]

/-- The register tells apart whatever it told apart before the same bytes came in. -/
theorem foldl_crcByte_injective (l : List Byte) {r r' : Word32}
    (h : l.foldl crcByte r = l.foldl crcByte r') : r = r' := by
  induction l generalizing r r' with
  | nil => exact h
  | cons b l ih => exact crcByte_injective_register (ih h)

/-- Eight turns on a register whose low byte is 0 only shift. -/
theorem crcShift8_of_low_zero {x : Word32} (h : ∀ k, k < 8 → x.getLsbD k = false) :
    crcShift8 x = x >>> 8 := by
  have turn : ∀ j, j < 8 → crcShift (x >>> j) = x >>> (j + 1) := fun j hj => by
    have h0 : (x >>> j).getLsbD 0 = false := by rw [BitVec.getLsbD_ushiftRight]; exact h _ (by omega)
    rw [BitVec.shiftRight_add, crcShift, h0, if_neg (by decide)]
  have t0 := turn 0 (by omega)
  simp only [BitVec.ushiftRight_zero] at t0
  rw [crcShift8_eq, t0, turn 1, turn 2, turn 3, turn 4, turn 5, turn 6, turn 7] <;> omega

/-- A byte equal to the register's low byte cancels it. -/
theorem crcByte_low (x : Word32) : crcByte x (x.extractLsb' 0 8) = x >>> 8 := by
  unfold crcByte
  rw [crcShift8_of_low_zero fun k hk => by simp [hk, show k < 32 by omega]]
  refine BitVec.eq_of_getLsbD_eq fun i hi => ?_
  simp

/-- The reversed feed as a map over the offsets (R106). -/
theorem reversedGroups_eq_map (m : Memory) (a g : Nat) :
    reversedGroups m a g =
      (List.range (4 * g)).map fun i => m.read (a + 4 * (i / 4) + (3 - i % 4)) := by
  induction g generalizing a with
  | zero => rfl
  | succ g ih =>
    have four : (List.range 4).map (fun i => m.read (a + 4 * (i / 4) + (3 - i % 4))) =
        [m.read (a + 3), m.read (a + 2), m.read (a + 1), m.read a] := rfl
    rw [show 4 * (g + 1) = 4 + 4 * g by omega, List.range_add, List.map_append, reversedGroups, ih,
      List.map_map, four]
    simp only [List.cons_append, List.nil_append]
    congr 4
    refine List.map_congr_left fun i _ => ?_
    simp only [Function.comp]
    congr 1
    omega

end Sys2Proof.Machine
end

