-- ==== Sys2Proof/Laws/Decode.lean ====
section
/-! SUPPORT. What the opcode byte and a decoded word say (spec/30_encoding.md R68 to R71): the decoder is
unfolded here and in no later proof. -/

namespace Sys2Proof

/-- The opcode of a command. -/
def Instr.opcode : Instr → Opcode
  | .nop => .nop
  | .pack _ _ _ _ => .pack
  | .unpack _ _ _ _ => .unpack
  | .zero _ _ => .zero
  | .crc _ _ => .crc
  | .setvl _ => .setvl
  | .setvh _ => .setvh
  | .stb _ _ => .stb
  | .ldb _ => .ldb
  | .mvcv => .mvcv

@[simp] theorem operands_opcode (w : Nat) (o : Opcode) : (operands w o).opcode = o := by
  cases o <;> rfl

theorem opcodeOf_le {n : Nat} {o : Opcode} (h : opcodeOf n = some o) : n ≤ 9 := by
  unfold opcodeOf at h; split at h <;> simp_all

/-- The opcode map, read backwards (R68). -/
theorem opcodeOf_eq_some {n : Nat} {o : Opcode} (h : opcodeOf n = some o) :
    (n = 0 ∧ o = .nop) ∨ (n = 1 ∧ o = .pack) ∨ (n = 2 ∧ o = .unpack) ∨ (n = 3 ∧ o = .zero) ∨
      (n = 4 ∧ o = .crc) ∨ (n = 5 ∧ o = .setvl) ∨ (n = 6 ∧ o = .setvh) ∨ (n = 7 ∧ o = .stb) ∨
      (n = 8 ∧ o = .ldb) ∨ (n = 9 ∧ o = .mvcv) := by
  have := opcodeOf_le h
  interval_cases n <;> simp_all [opcodeOf]

/-- The unassigned opcodes (R70). -/
theorem opcodeOf_eq_none {n : Nat} : opcodeOf n = none ↔ 9 < n := by
  refine ⟨fun h => ?_, fun h => ?_⟩
  · by_contra hc
    interval_cases n <;> simp [opcodeOf] at h
  · cases hn : opcodeOf n with
    | none => rfl
    | some o => have := opcodeOf_le hn; omega

/-- All the decoder does with a word of an assigned opcode (R69). -/
theorem decode_of_opcode {cmd : Command} {o : Opcode}
    (h : opcodeOf (bits cmd.toNat 63 56) = some o) :
    decode cmd = if reservedBits cmd.toNat (formatOf o) = 0 then .instr (operands cmd.toNat o)
      else .reservedField := by
  unfold decode; rw [h]

/-- All the decoder does with a word of an unassigned opcode (R70). -/
theorem decode_of_unassigned {cmd : Command} (h : 9 < bits cmd.toNat 63 56) :
    decode cmd = .illegalOpcode := by
  unfold decode; rw [opcodeOf_eq_none.mpr h]

/-- What a word that decodes to a command is: its opcode byte, its reserved bits, its operands. -/
theorem decode_eq_instr {cmd : Command} {i : Instr} (h : decode cmd = .instr i) :
    opcodeOf (bits cmd.toNat 63 56) = some i.opcode ∧
      reservedBits cmd.toNat (formatOf i.opcode) = 0 ∧ operands cmd.toNat i.opcode = i := by
  unfold decode at h
  cases ho : opcodeOf (bits cmd.toNat 63 56) with
  | none => simp [ho] at h
  | some o =>
    simp only [ho] at h
    split at h
    · rename_i hr
      obtain rfl := Decoded.instr.inj h
      rw [operands_opcode]; exact ⟨rfl, hr, rfl⟩
    · simp at h

/-- The opcode byte of a decoded word is its command's. -/
theorem opcode_of_decode {cmd : Command} {i : Instr} (h : decode cmd = .instr i) {n : Nat}
    (hn : opcodeOf n = some i.opcode) : bits cmd.toNat 63 56 = n := by
  rcases opcodeOf_eq_some (decode_eq_instr h).1 with g|g|g|g|g|g|g|g|g|g <;>
    rcases opcodeOf_eq_some hn with k|k|k|k|k|k|k|k|k|k <;>
    first | omega | (rw [g.2] at k; simp at k)

end Sys2Proof
end

