-- ==== Sys2Proof/Laws/Memory.lean ====
section
/-! SUPPORT. What the memory operations do, once each: reads after writes, the canonical form, and the
bits of a window as a number. -/

namespace Sys2Proof.Machine

/-- Every address of the list is below `n`. -/
abbrev Memory.Below (m : Memory) (n : Nat) : Prop := ∀ p ∈ m, p.1 < n

theorem Memory.wf_nil : Memory.wf [] := by simp [Memory.wf]

theorem Memory.wf.tail {p : Host.Cell} {m : Memory} (h : Memory.wf (p :: m)) : Memory.wf m := by
  refine ⟨(List.pairwise_cons.mp h.1).2, fun q hq => h.2 q (List.mem_cons_of_mem _ hq)⟩

theorem Memory.wf.head_lt {p : Host.Cell} {m : Memory} (h : Memory.wf (p :: m)) :
    ∀ q ∈ m, p.1 < q.1 := (List.pairwise_cons.mp h.1).1

@[simp] theorem Memory.read_nil (a : Nat) : Memory.read [] a = unlistedByte := rfl

theorem Memory.read_cons (k : Nat) (b : Byte) (m : Memory) (a : Nat) :
    Memory.read ((k, b) :: m) a = if k = a then b else Memory.read m a := rfl

/-- An address below every listed one reads as unlisted. -/
theorem Memory.read_of_lt {m : Memory} {a : Nat} (h : ∀ p ∈ m, a < p.1) :
    m.read a = unlistedByte := by
  induction m with
  | nil => rfl
  | cons p m ih =>
    obtain ⟨k, b⟩ := p
    have hk : a < k := h (k, b) (by simp)
    rw [Memory.read_cons, if_neg (by omega)]
    exact ih fun q hq => h q (List.mem_cons_of_mem _ hq)

theorem mem_consCell {a : Nat} {b : Byte} {m : Memory} {p : Host.Cell} (h : p ∈ consCell a b m) :
    p ∈ m ∨ (p = (a, b) ∧ b ≠ unlistedByte) := by
  unfold consCell at h
  split at h
  · exact .inl h
  · rcases List.mem_cons.mp h with rfl | h
    · exact .inr ⟨rfl, ‹_›⟩
    · exact .inl h

theorem consCell_wf {a : Nat} {b : Byte} {m : Memory} (hm : m.wf) (h : ∀ p ∈ m, a < p.1) :
    (consCell a b m).wf := by
  unfold consCell
  split
  · exact hm
  · refine ⟨List.pairwise_cons.mpr ⟨h, hm.1⟩, fun p hp => ?_⟩
    rcases List.mem_cons.mp hp with rfl | hp
    · assumption
    · exact hm.2 p hp

theorem read_consCell {a : Nat} {b : Byte} {m : Memory} (h : ∀ p ∈ m, a < p.1) (x : Nat) :
    (consCell a b m).read x = if a = x then b else m.read x := by
  unfold consCell
  split
  · rename_i hb
    split
    · subst_vars; exact Memory.read_of_lt h
    · rfl
  · rfl

theorem Memory.mem_write {m : Memory} {a : Nat} {b : Byte} {p : Host.Cell}
    (h : p ∈ m.write a b) : p ∈ m ∨ (p = (a, b) ∧ b ≠ unlistedByte) := by
  induction m with
  | nil => exact mem_consCell h
  | cons q m ih =>
    obtain ⟨k, c⟩ := q
    simp only [Memory.write] at h
    split at h
    · exact mem_consCell h
    · split at h
      · exact (mem_consCell h).imp_left (List.mem_cons_of_mem _)
      · rcases List.mem_cons.mp h with rfl | h
        · simp
        · exact (ih h).imp_left (List.mem_cons_of_mem _)

/-- A write keeps the canonical form. -/
theorem Memory.write_wf {m : Memory} (hm : m.wf) (a : Nat) (b : Byte) : (m.write a b).wf := by
  induction m with
  | nil => exact consCell_wf hm (by simp)
  | cons q m ih =>
    obtain ⟨k, c⟩ := q
    have hk := hm.head_lt
    simp only [Memory.write]
    split
    · refine consCell_wf hm fun p hp => ?_
      rcases List.mem_cons.mp hp with rfl | hp
      · assumption
      · have := hk p hp; simp only at this; omega
    · split
      · subst_vars; exact consCell_wf hm.tail hk
      · refine ⟨List.pairwise_cons.mpr ⟨fun p hp => ?_, (ih hm.tail).1⟩, fun p hp => ?_⟩
        · rcases Memory.mem_write hp with hp | ⟨rfl, -⟩
          · exact hk p hp
          · simp only; omega
        · rcases List.mem_cons.mp hp with rfl | hp
          · exact hm.2 _ (by simp)
          · exact (ih hm.tail).2 p hp

/-- A byte read after a byte is written. -/
theorem Memory.read_write {m : Memory} (hm : m.wf) (a : Nat) (b : Byte) (x : Nat) :
    (m.write a b).read x = if a = x then b else m.read x := by
  induction m with
  | nil => exact read_consCell (by simp) x
  | cons q m ih =>
    obtain ⟨k, c⟩ := q
    have hk := hm.head_lt
    simp only [Memory.write]
    split
    · refine read_consCell (fun p hp => ?_) x
      rcases List.mem_cons.mp hp with rfl | hp
      · assumption
      · have := hk p hp; simp only at this; omega
    · split
      · subst_vars
        rw [read_consCell hk]
        split
        · rfl
        · rw [Memory.read_cons, if_neg (by assumption)]
      · rw [Memory.read_cons, Memory.read_cons, ih hm.tail]
        split
        · rw [if_neg (by omega)]
        · rfl

theorem Memory.write_below {m : Memory} {n a : Nat} (hm : m.Below n) (ha : a < n) (b : Byte) :
    (m.write a b).Below n := fun p hp => by
  rcases Memory.mem_write hp with hp | ⟨rfl, -⟩
  · exact hm p hp
  · exact ha

/-- Two canonical memories that read the same everywhere are the same list. -/
theorem Memory.ext {m m' : Memory} (hm : m.wf) (hm' : m'.wf) (h : ∀ a, m.read a = m'.read a) :
    m = m' := by
  induction m generalizing m' with
  | nil =>
    cases m' with
    | nil => rfl
    | cons p m' =>
      have := h p.1
      simp [Memory.read] at this
      exact absurd this.symm (hm'.2 p (by simp))
  | cons p m ih =>
    obtain ⟨k, b⟩ := p
    have hb : b ≠ unlistedByte := hm.2 (k, b) (by simp)
    cases m' with
    | nil =>
      have := h k
      simp [Memory.read] at this
      exact absurd this hb
    | cons q m' =>
      obtain ⟨k', b'⟩ := q
      have hb' : b' ≠ unlistedByte := hm'.2 (k', b') (by simp)
      have hl := hm.head_lt
      have hl' := hm'.head_lt
      simp only at hl hl'
      have hkk : k = k' := by
        rcases Nat.lt_trichotomy k k' with hlt | heq | hgt
        · have := h k
          rw [Memory.read_cons, if_pos rfl, Memory.read_cons, if_neg (by omega),
            Memory.read_of_lt (fun p hp => by have := hl' p hp; omega)] at this
          exact absurd this hb
        · exact heq
        · have := h k'
          rw [Memory.read_cons, if_neg (by omega), Memory.read_cons, if_pos rfl,
            Memory.read_of_lt (fun p hp => by have := hl p hp; omega)] at this
          exact absurd this.symm hb'
      subst hkk
      have hbb : b = b' := by have := h k; simpa [Memory.read] using this
      subst hbb
      congr 1
      refine ih hm.tail hm'.tail fun a => ?_
      by_cases ha : a = k
      · subst ha
        rw [Memory.read_of_lt hl, Memory.read_of_lt hl']
      · have := h a
        rwa [Memory.read_cons, Memory.read_cons, if_neg (by omega), if_neg (by omega)] at this

theorem Memory.mem_ofBytes {l : List Byte} {a : Nat} {p : Host.Cell} (h : p ∈ Memory.ofBytes a l) :
    a ≤ p.1 ∧ p.1 < a + l.length := by
  induction l generalizing a with
  | nil => simp [Memory.ofBytes] at h
  | cons b l ih =>
    simp only [Memory.ofBytes] at h
    rcases mem_consCell h with h | ⟨rfl, -⟩
    · have := ih h; simp only [List.length_cons]; omega
    · simp

theorem Memory.ofBytes_wf (a : Nat) (l : List Byte) : (Memory.ofBytes a l).wf := by
  induction l generalizing a with
  | nil => exact Memory.wf_nil
  | cons b l ih => exact consCell_wf (ih _) fun p hp => by have := (Memory.mem_ofBytes hp).1; omega

/-- `ofBytes` holds byte `i` of the list at address `a + i`. -/
theorem Memory.read_ofBytes (a : Nat) (l : List Byte) (i : Nat) :
    (Memory.ofBytes a l).read (a + i) = l.getD i unlistedByte := by
  induction l generalizing a i with
  | nil => simp [Memory.ofBytes]
  | cons b l ih =>
    simp only [Memory.ofBytes]
    rw [read_consCell fun p hp => by have := (Memory.mem_ofBytes hp).1; omega]
    cases i with
    | zero => simp
    | succ i =>
      rw [if_neg (by omega), show a + (i + 1) = (a + 1) + i by omega, ih]
      simp

theorem Memory.ofBytes_below (l : List Byte) (n : Nat) : (Memory.ofBytes 0 (l.take n)).Below n :=
  fun p hp => by have := (Memory.mem_ofBytes hp).2; simp at this; omega

/-! ### Windows -/

theorem memWrite_wf {m : Memory} (hm : m.wf) (a n x : Nat) : (memWrite m a n x).wf := by
  induction n generalizing m a with
  | zero => exact hm
  | succ n ih => exact ih (Memory.write_wf hm _ _) _

theorem memWrite_below {m : Memory} {k : Nat} (hm : m.Below k) {a n : Nat} (h : a + n ≤ k)
    (x : Nat) : (memWrite m a n x).Below k := by
  induction n generalizing m a with
  | zero => exact hm
  | succ n ih => exact ih (Memory.write_below hm (by omega) _) (by omega)

/-- `MemWrite` (R12): inside, byte `i` is `x[8(n-1-i)+7 : 8(n-1-i)]`; outside, nothing changes. -/
theorem read_memWrite {m : Memory} (hm : m.wf) (a n x y : Nat) :
    (memWrite m a n x).read y =
      if a ≤ y ∧ y < a + n then
        BitVec.ofNat 8 (bits x (8 * (a + n - 1 - y) + 7) (8 * (a + n - 1 - y)))
      else m.read y := by
  induction n generalizing m a with
  | zero => rw [if_neg (by omega)]; rfl
  | succ n ih =>
    simp only [memWrite]
    rw [ih (Memory.write_wf hm _ _), Memory.read_write hm]
    by_cases h1 : a = y
    · subst h1
      rw [if_neg (by omega), if_pos rfl, if_pos (by omega), show a + (n + 1) - 1 - a = n by omega]
    · rw [if_neg h1]
      by_cases h2 : a + 1 ≤ y ∧ y < a + 1 + n
      · rw [if_pos h2, if_pos (by omega), show a + (n + 1) - 1 - y = a + 1 + n - 1 - y by omega]
      · rw [if_neg h2, if_neg (by omega)]

theorem zeroBytes_wf {m : Memory} (hm : m.wf) (a n : Nat) : (zeroBytes m a n).wf := by
  induction n generalizing m a with
  | zero => exact hm
  | succ n ih => exact ih (Memory.write_wf hm _ _) _

theorem zeroBytes_below {m : Memory} {k : Nat} (hm : m.Below k) {a n : Nat} (h : a + n ≤ k) :
    (zeroBytes m a n).Below k := by
  induction n generalizing m a with
  | zero => exact hm
  | succ n ih => exact ih (Memory.write_below hm (by omega) _) (by omega)

theorem read_zeroBytes {m : Memory} (hm : m.wf) (a n y : Nat) :
    (zeroBytes m a n).read y = if a ≤ y ∧ y < a + n then 0 else m.read y := by
  induction n generalizing m a with
  | zero => rw [if_neg (by omega)]; rfl
  | succ n ih =>
    simp only [zeroBytes]
    rw [ih (Memory.write_wf hm _ _), Memory.read_write hm]
    by_cases h1 : a = y
    · subst h1
      rw [if_neg (by omega), if_pos rfl, if_pos (by omega)]
    · rw [if_neg h1]
      by_cases h2 : a + 1 ≤ y ∧ y < a + 1 + n
      · rw [if_pos h2, if_pos (by omega)]
      · rw [if_neg h2, if_neg (by omega)]

theorem memRead_lt (m : Memory) (a n : Nat) : memRead m a n < 2 ^ (8 * n) := by
  induction n generalizing a with
  | zero => simp [memRead]
  | succ n ih =>
    have h1 := ih (a + 1)
    have h2 := (m.read a).isLt
    rw [memRead, show 8 * (n + 1) = 8 + 8 * n by omega, Nat.pow_add]
    calc (m.read a).toNat * 2 ^ (8 * n) + memRead m (a + 1) n
        < (m.read a).toNat * 2 ^ (8 * n) + 2 ^ (8 * n) := by omega
      _ = ((m.read a).toNat + 1) * 2 ^ (8 * n) := by ring
      _ ≤ 2 ^ 8 * 2 ^ (8 * n) := Nat.mul_le_mul_right _ h2

/-- Bit `k` of the scalar `MemRead` gives is bit `k` of the window (R40, R41). -/
theorem memRead_testBit (m : Memory) (a n k : Nat) :
    (memRead m a n).testBit k = (decide (k < 8 * n) && windowBit m a n k) := by
  induction n generalizing a with
  | zero => simp [memRead]
  | succ n ih =>
    rw [memRead, Nat.mul_comm, Nat.testBit_two_pow_mul_add _ (memRead_lt m (a + 1) n)]
    split
    · rename_i h
      have hk : k / 8 < n := by omega
      rw [ih]
      simp only [windowBit, bitAddress]
      rw [show a + 1 + n - 1 - k / 8 = a + (n + 1) - 1 - k / 8 by omega]
      simp [h, show k < 8 * (n + 1) by omega]
    · rename_i h
      by_cases hk : k < 8 * (n + 1)
      · have h8 : k / 8 = n := by omega
        simp only [windowBit, bitAddress, hk, decide_true, Bool.true_and, h8]
        rw [show a + (n + 1) - 1 - n = a by omega, show k % 8 = k - 8 * n by omega]
        rfl
      · simp only [hk, decide_false, Bool.false_and]
        rw [← BitVec.getLsbD, BitVec.getLsbD_of_ge _ _ (by omega)]

/-- Bit `i` of the byte `x[8j+7 : 8j]`. -/
theorem byte_of_bits_getLsbD (x j i : Nat) (hi : i < 8) :
    (BitVec.ofNat 8 (bits x (8 * j + 7) (8 * j))).getLsbD i = x.testBit (8 * j + i) := by
  simp only [bits, BitVec.getLsbD_ofNat, show 8 * j + 7 - 8 * j + 1 = 8 by omega,
    Nat.testBit_mod_two_pow, Nat.testBit_div_two_pow, hi, decide_true, Bool.true_and]
  rw [Nat.add_comm]

/-- A window read after a window write is the scalar written. -/
theorem windowBit_memWrite {m : Memory} (hm : m.wf) (a n x k : Nat) (hk : k < 8 * n) :
    windowBit (memWrite m a n x) a n k = x.testBit k := by
  have h8 : k / 8 < n := by omega
  simp only [windowBit, bitAddress]
  rw [read_memWrite hm, if_pos (by omega),
    show a + n - 1 - (a + n - 1 - k / 8) = k / 8 by omega,
    byte_of_bits_getLsbD _ _ _ (Nat.mod_lt _ (by omega)), Nat.div_add_mod]

@[simp] theorem bytesAt_length (m : Memory) (a n : Nat) : (bytesAt m a n).length = n := by
  induction n generalizing a with
  | zero => rfl
  | succ n ih => simp [bytesAt, ih]

/-- The ascending feed as a map over the offsets (R105). -/
theorem bytesAt_eq_map (m : Memory) (a n : Nat) :
    bytesAt m a n = (List.range n).map fun i => m.read (a + i) := by
  induction n generalizing a with
  | zero => rfl
  | succ n ih =>
    rw [List.range_succ_eq_map, bytesAt, ih]
    simp [Function.comp_def, Nat.add_comm, Nat.add_left_comm]

end Sys2Proof.Machine
end

