-- ==== Sys2Proof/Laws/Fields.lean ====
section
/-! SUPPORT. What inserting and extracting a field do, bit by bit (spec/40_bitfield.md R82, R84), and what
each operand check says. -/

namespace Sys2Proof.Machine

/-- What a passed check of R81 gives: the source's invariant, and the window inside BUF. -/
theorem fieldFault_none {cfg : Config} {base wbytes high low : Nat} :
    fieldFault cfg base wbytes high low = none ↔
      1 ≤ wbytes ∧ base + wbytes ≤ cfg.bufBytes ∧ low ≤ high ∧ high ≤ 8 * wbytes - 1 ∧
        high - low + 1 ≤ 64 := by
  unfold fieldFault fieldWidth
  repeat' split
  all_goals simp
  all_goals omega

theorem rangeFault_none {cfg : Config} {base len : Nat} :
    rangeFault cfg base len = none ↔ base + len ≤ cfg.bufBytes := by
  unfold rangeFault; split <;> simp <;> omega

theorem byteFault_none {cfg : Config} {addr : Nat} :
    byteFault cfg addr = none ↔ addr < cfg.bufBytes := by
  unfold byteFault; split <;> simp <;> omega

theorem crcFault_none {cfg : Config} {base len : Nat} :
    crcFault cfg base len = none ↔
      base + len ≤ cfg.bufBytes ∧ (cfg.crcFeed = .word32Reversed → len % 4 = 0) := by
  unfold crcFault rangeFault
  by_cases h : base + len > cfg.bufBytes
  · simp [h]
  · simp only [h, if_false]
    by_cases hf : cfg.crcFeed = .word32Reversed <;> by_cases hl : len % 4 = 0 <;> simp [hf, hl] <;>
      omega

theorem packFault_none {cfg : Config} {v : Word64} {base wbytes high low : Nat} :
    packFault cfg v base wbytes high low = none ↔
      fieldFault cfg base wbytes high low = none ∧
        (cfg.overflowMode = .fault → overflows v high low = false) := by
  unfold packFault
  cases h : fieldFault cfg base wbytes high low with
  | some k => simp
  | none =>
    simp only [true_and]
    split <;> rename_i hc
    · simp [hc]
    · simp only [not_and, Bool.not_eq_true] at hc; simpa using hc

/-- V does not fit the field (R83). -/
theorem overflows_iff {v : Word64} {high low : Nat} :
    overflows v high low = true ↔ high - low + 1 < 64 ∧ 2 ^ (high - low + 1) ≤ v.toNat := by
  simp only [overflows, Bool.and_eq_true, decide_eq_true_eq, ge_iff_le]
  rfl

theorem fieldMask_testBit (high low k : Nat) (h : low ≤ high) :
    (fieldMask high low).testBit k = decide (low ≤ k ∧ k ≤ high) := by
  simp only [fieldMask, fieldWidth, Nat.testBit_shiftLeft, Nat.testBit_two_pow_sub_one]
  by_cases h1 : low ≤ k
  · by_cases h2 : k ≤ high
    · simp [h1, h2]; omega
    · simp [h1, h2]; omega
  · simp [h1]

theorem notW_testBit {w x : Nat} (hx : x < 2 ^ w) (k : Nat) :
    (notW w x).testBit k = (decide (k < w) && !x.testBit k) := by
  rw [notW, show 2 ^ w - 1 - x = 2 ^ w - (x + 1) by omega, Nat.testBit_two_pow_sub_succ hx]

theorem fieldMask_lt {high low w : Nat} (h : low ≤ high) (hw : high < w) :
    fieldMask high low < 2 ^ w := by
  refine Nat.lt_pow_two_of_testBit _ fun k hk => ?_
  rw [fieldMask_testBit _ _ _ h, decide_eq_false_iff_not]
  omega

/-- Bit `k` of the scalar PACK writes (R82): V inside the field, the old scalar outside. -/
theorem insertField_testBit {scalar wbytes high low : Nat} (v : Word64)
    (hs : scalar < 2 ^ (8 * wbytes)) (h : low ≤ high) (hw : high < 8 * wbytes) (k : Nat) :
    (insertField scalar wbytes high low v).testBit k =
      if low ≤ k ∧ k ≤ high then v.getLsbD (k - low) else scalar.testBit k := by
  simp only [insertField, Nat.testBit_or, Nat.testBit_and, notW_testBit (fieldMask_lt h hw),
    fieldMask_testBit _ _ _ h, Nat.testBit_shiftLeft, Nat.testBit_mod_two_pow, fieldWidth]
  split
  · rename_i hk
    simp [hk, show k - low < high - low + 1 by omega, BitVec.getLsbD]
  · rename_i hk
    have h1 : ¬ (k ≥ low ∧ k - low < high - low + 1) := by omega
    by_cases h8 : k < 8 * wbytes
    · simp only [h8, hk, decide_true, decide_false, Bool.not_false, Bool.and_true]
      by_cases hl : low ≤ k
      · simp [show ¬ k - low < high - low + 1 by omega]
      · simp [hl]
    · have : scalar.testBit k = false :=
        Nat.testBit_eq_false_of_lt (Nat.lt_of_lt_of_le hs (Nat.pow_le_pow_right (by omega) (by omega)))
      simp only [this, h8, decide_false, Bool.false_and, Bool.false_or]
      by_cases hl : low ≤ k
      · simp [show ¬ k - low < high - low + 1 by omega]
      · simp [hl]

/-- Bit `j` of the number UNPACK takes (R84): the field's bits, then zeros. -/
theorem extractField_testBit (scalar high low j : Nat) :
    (extractField scalar high low).testBit j =
      (decide (j < high - low + 1) && scalar.testBit (low + j)) := by
  simp [extractField, fieldWidth, Nat.testBit_mod_two_pow, Nat.testBit_shiftRight]

theorem packBuf_wf {m : Memory} (hm : m.wf) (base wbytes high low : Nat) (v : Word64) :
    (packBuf m base wbytes high low v).wf := memWrite_wf hm _ _ _

theorem packBuf_below {m : Memory} {n base wbytes : Nat} (hm : m.Below n) (h : base + wbytes ≤ n)
    (high low : Nat) (v : Word64) : (packBuf m base wbytes high low v).Below n :=
  memWrite_below hm h _

/-- PACK inside its window, bit by bit (R82). -/
theorem packBuf_windowBit {m : Memory} (hm : m.wf) {base wbytes high low : Nat} (v : Word64)
    (h : low ≤ high) (hw : high < 8 * wbytes) {k : Nat} (hk : k < 8 * wbytes) :
    windowBit (packBuf m base wbytes high low v) base wbytes k =
      if low ≤ k ∧ k ≤ high then v.getLsbD (k - low) else windowBit m base wbytes k := by
  rw [packBuf, windowBit_memWrite hm _ _ _ _ hk,
    insertField_testBit v (memRead_lt m base wbytes) h hw, memRead_testBit]
  simp [hk]

/-- PACK outside its window. -/
theorem packBuf_read_outside {m : Memory} (hm : m.wf) {base wbytes high low : Nat} (v : Word64)
    {a : Nat} (ha : ¬ (base ≤ a ∧ a < base + wbytes)) :
    (packBuf m base wbytes high low v).read a = m.read a := by
  rw [packBuf, read_memWrite hm, if_neg ha]

/-- Bit `i` of the byte at `a` of a window is bit `8 * (base + wbytes - 1 - a) + i` of the window. -/
theorem read_getLsbD_eq_windowBit {m : Memory} {base wbytes a i : Nat} (h1 : base ≤ a)
    (h2 : a < base + wbytes) (hi : i < 8) :
    (m.read a).getLsbD i = windowBit m base wbytes (8 * (base + wbytes - 1 - a) + i) := by
  simp only [windowBit, bitAddress]
  rw [show (8 * (base + wbytes - 1 - a) + i) / 8 = base + wbytes - 1 - a by omega,
    show (8 * (base + wbytes - 1 - a) + i) % 8 = i by omega,
    show base + wbytes - 1 - (base + wbytes - 1 - a) = a by omega]

/-- PACK at any byte of BUF, bit by bit: bit `i` of byte `a` changes only if it is a field bit. -/
theorem packBuf_read {m : Memory} (hm : m.wf) {base wbytes high low : Nat} (v : Word64)
    (h : low ≤ high) (hw : high < 8 * wbytes) (a i : Nat) (hi : i < 8) :
    ((packBuf m base wbytes high low v).read a).getLsbD i =
      if base ≤ a ∧ a < base + wbytes ∧ low ≤ 8 * (base + wbytes - 1 - a) + i ∧
          8 * (base + wbytes - 1 - a) + i ≤ high
      then v.getLsbD (8 * (base + wbytes - 1 - a) + i - low) else (m.read a).getLsbD i := by
  by_cases ha : base ≤ a ∧ a < base + wbytes
  · rw [read_getLsbD_eq_windowBit ha.1 ha.2 hi, packBuf_windowBit hm v h hw (by omega),
      ← read_getLsbD_eq_windowBit ha.1 ha.2 hi]
    simp [ha]
  · rw [packBuf_read_outside hm v ha, if_neg (by tauto)]

/-- A byte that holds no field bit is not changed by PACK (R46). -/
theorem packBuf_read_other {m : Memory} (hm : m.wf) {base wbytes high low : Nat} (v : Word64)
    (h : low ≤ high) (hw : high < 8 * wbytes) {a : Nat}
    (ha : a < bitAddress base wbytes high ∨ bitAddress base wbytes low < a) :
    (packBuf m base wbytes high low v).read a = m.read a := by
  refine BitVec.eq_of_getLsbD_eq fun i hi => ?_
  rw [packBuf_read hm v h hw a i hi, if_neg]
  simp only [bitAddress] at ha
  omega

/-- The bits of V after UNPACK (R84). -/
theorem unpackValue_getLsbD (m : Memory) {base wbytes high low : Nat} (hw : high < 8 * wbytes)
    (h : low ≤ high) (hn : high - low + 1 ≤ 64) (j : Nat) :
    (unpackValue m base wbytes high low).getLsbD j =
      (decide (j < high - low + 1) && windowBit m base wbytes (low + j)) := by
  simp only [unpackValue, BitVec.getLsbD_ofNat, extractField_testBit, memRead_testBit]
  by_cases hj : j < high - low + 1
  · simp [hj, show j < 64 by omega, show low + j < 8 * wbytes by omega]
  · simp [hj]

end Sys2Proof.Machine
end

