-- ==== Sys2Proof/Laws/PerInstr.lean ====
section
/-! SUPPORT. Statements about every command as syntax, one lemma per constructor: what the encoder puts in
the opcode byte and in the reserved bits of a well-formed command (spec/30_encoding.md R61 to R68). -/

namespace Sys2Proof

namespace Laws.EncodeLayout

/-- The encoded word carries the command's opcode in bits 63:56 and 0 in its format's reserved bits. -/
def Statement (i : Instr) : Prop :=
  i.WellFormed →
    opcodeOf (bits (encode i).toNat 63 56) = some i.opcode ∧
      reservedBits (encode i).toNat (formatOf i.opcode) = 0

theorem nop : Statement .nop := fun _ => by decide

theorem pack (base wbytes high low : Nat) : Statement (.pack base wbytes high low) := by
  intro h
  simp only [Instr.WellFormed, Instr.wf, Bool.and_eq_true, decide_eq_true_eq] at h
  obtain ⟨⟨⟨h1, h2⟩, h3⟩, h4⟩ := h
  have : bits (encode (.pack base wbytes high low)).toNat 63 56 = 1 := by
    simp only [encode, BitVec.toNat_ofNat, bits]; omega
  rw [this]; exact ⟨rfl, rfl⟩

theorem unpack (base wbytes high low : Nat) : Statement (.unpack base wbytes high low) := by
  intro h
  simp only [Instr.WellFormed, Instr.wf, Bool.and_eq_true, decide_eq_true_eq] at h
  obtain ⟨⟨⟨h1, h2⟩, h3⟩, h4⟩ := h
  have : bits (encode (.unpack base wbytes high low)).toNat 63 56 = 2 := by
    simp only [encode, BitVec.toNat_ofNat, bits]; omega
  rw [this]; exact ⟨rfl, rfl⟩

theorem zero (base len : Nat) : Statement (.zero base len) := by
  intro h
  simp only [Instr.WellFormed, Instr.wf, Bool.and_eq_true, decide_eq_true_eq] at h
  have h1 : bits (encode (.zero base len)).toNat 63 56 = 3 := by
    simp only [encode, BitVec.toNat_ofNat, bits]; omega
  have h2 : bits (encode (.zero base len)).toNat 39 32 = 0 := by
    simp only [encode, BitVec.toNat_ofNat, bits]; omega
  rw [h1]; exact ⟨rfl, h2⟩

theorem crc (base len : Nat) : Statement (.crc base len) := by
  intro h
  simp only [Instr.WellFormed, Instr.wf, Bool.and_eq_true, decide_eq_true_eq] at h
  have h1 : bits (encode (.crc base len)).toNat 63 56 = 4 := by
    simp only [encode, BitVec.toNat_ofNat, bits]; omega
  have h2 : bits (encode (.crc base len)).toNat 39 32 = 0 := by
    simp only [encode, BitVec.toNat_ofNat, bits]; omega
  rw [h1]; exact ⟨rfl, h2⟩

theorem setvl (imm32 : Word32) : Statement (.setvl imm32) := by
  intro _
  have := imm32.isLt
  have h1 : bits (encode (.setvl imm32)).toNat 63 56 = 5 := by
    simp only [encode, BitVec.toNat_ofNat, bits]; omega
  have h2 : bits (encode (.setvl imm32)).toNat 55 32 = 0 := by
    simp only [encode, BitVec.toNat_ofNat, bits]; omega
  rw [h1]; exact ⟨rfl, h2⟩

theorem setvh (imm32 : Word32) : Statement (.setvh imm32) := by
  intro _
  have := imm32.isLt
  have h1 : bits (encode (.setvh imm32)).toNat 63 56 = 6 := by
    simp only [encode, BitVec.toNat_ofNat, bits]; omega
  have h2 : bits (encode (.setvh imm32)).toNat 55 32 = 0 := by
    simp only [encode, BitVec.toNat_ofNat, bits]; omega
  rw [h1]; exact ⟨rfl, h2⟩

theorem stb (addr : Nat) (imm8 : Byte) : Statement (.stb addr imm8) := by
  intro h
  simp only [Instr.WellFormed, Instr.wf, decide_eq_true_eq] at h
  have := imm8.isLt
  have h1 : bits (encode (.stb addr imm8)).toNat 63 56 = 7 := by
    simp only [encode, BitVec.toNat_ofNat, bits]; omega
  have h2 : bits (encode (.stb addr imm8)).toNat 39 8 = 0 := by
    simp only [encode, BitVec.toNat_ofNat, bits]; omega
  rw [h1]; exact ⟨rfl, h2⟩

theorem ldb (addr : Nat) : Statement (.ldb addr) := by
  intro h
  simp only [Instr.WellFormed, Instr.wf, decide_eq_true_eq] at h
  have h1 : bits (encode (.ldb addr)).toNat 63 56 = 8 := by
    simp only [encode, BitVec.toNat_ofNat, bits]; omega
  have h2 : bits (encode (.ldb addr)).toNat 39 0 = 0 := by
    simp only [encode, BitVec.toNat_ofNat, bits]; omega
  rw [h1]; exact ⟨rfl, h2⟩

theorem mvcv : Statement .mvcv := fun _ => by decide

end Laws.EncodeLayout

end Sys2Proof
end

