-- ==== Sys2Proof/Laws/Step.lean ====
section
/-! SUPPORT. What one command and one step can do, said once: every command is its checks and its
effect, every step is one of five cases, and every invariant is proved from these. -/

namespace Sys2Proof.Machine

/-- The state a command completes in, its operand checks passed. -/
def effect (i : Instr) (s : State) : State :=
  match i with
  | .nop => s
  | .pack base wbytes high low => { s with buf := packBuf s.buf base wbytes high low s.v }
  | .unpack base wbytes high low => { s with v := unpackValue s.buf base wbytes high low }
  | .zero base len => { s with buf := zeroBytes s.buf base len }
  | .crc base len => { s with c := crc32 (crcFeedBytes s.cfg.crcFeed s.buf base len) }
  | .setvl imm32 => { s with v := joinHalves (highHalf s.v) imm32 }
  | .setvh imm32 => { s with v := joinHalves imm32 (lowHalf s.v) }
  | .stb addr imm8 => { s with buf := s.buf.write addr imm8 }
  | .ldb addr => { s with v := (s.buf.read addr).setWidth 64 }
  | .mvcv => { s with v := s.c.setWidth 64 }

/-- All a command can do: its first failing check raises the fault, else it completes (R14). -/
theorem exec_eq (i : Instr) (s : State) :
    exec i s = finish (instrFault s.cfg s.v i) (encode i) s (effect i s) := by
  cases i <;> rfl

@[simp] theorem finish_some (k : Cause) (w : Command) (s t : State) :
    finish (some k) w s t = .next (raise k w s) := rfl

@[simp] theorem finish_none (w : Command) (s t : State) : finish none w s t = .next t := rfl

/-- A command whose checks pass completes in its effect. -/
theorem exec_of_none {i : Instr} {s : State} (h : instrFault s.cfg s.v i = none) :
    exec i s = .next (effect i s) := by rw [exec_eq, h]; rfl

/-- A command with a failing check takes the fault. -/
theorem exec_of_some {i : Instr} {s : State} {k : Cause} (h : instrFault s.cfg s.v i = some k) :
    exec i s = .next (raise k (encode i) s) := by rw [exec_eq, h]; rfl

@[simp] theorem effect_cfg (i : Instr) (s : State) : (effect i s).cfg = s.cfg := by cases i <;> rfl
@[simp] theorem effect_st (i : Instr) (s : State) : (effect i s).st = s.st := by cases i <;> rfl
@[simp] theorem effect_fcmd (i : Instr) (s : State) : (effect i s).fcmd = s.fcmd := by
  cases i <;> rfl
@[simp] theorem effect_host (i : Instr) (s : State) : (effect i s).host = s.host := by
  cases i <;> rfl

/-- A completed command leaves BUF in canonical form and inside its size. -/
theorem effect_bufWf {i : Instr} {s : State} (hs : BufWf s) (h : instrFault s.cfg s.v i = none) :
    BufWf (effect i s) := by
  obtain ⟨hw, hb⟩ := hs
  cases i with
  | pack base wbytes high low =>
    have hf := fieldFault_none.mp (packFault_none.mp h).1
    exact ⟨packBuf_wf hw _ _ _ _ _, packBuf_below hb hf.2.1 _ _ _⟩
  | zero base len => exact ⟨zeroBytes_wf hw _ _, zeroBytes_below hb (rangeFault_none.mp h)⟩
  | stb addr imm8 => exact ⟨Memory.write_wf hw _ _, Memory.write_below hb (byteFault_none.mp h) _⟩
  | _ => exact ⟨hw, hb⟩

/-- All a step can do: the host rests; it resets the block; it offers a word that is not accepted; the
word is accepted and faults, decoded or not; or the word is a command and completes. -/
theorem step_cases (s : State) :
    (s.host = [] ∧ step s = .next s) ∨
    (∃ content rest, s.host = .reset content :: rest ∧
      step s = .next (applyReset content { s with host := rest })) ∨
    (∃ cmd rest, s.host = .offer cmd :: rest ∧ s.faulted = true ∧
      step s = .next { s with host := rest }) ∨
    (∃ cmd rest k w, s.host = .offer cmd :: rest ∧ s.faulted = false ∧
      commandFault s.cfg s.v cmd = some k ∧
      (w = cmd ∨ ∃ i, decode cmd = .instr i ∧ w = encode i) ∧
      step s = .next (raise k w { s with host := rest })) ∨
    (∃ cmd rest i, s.host = .offer cmd :: rest ∧ s.faulted = false ∧ decode cmd = .instr i ∧
      commandFault s.cfg s.v cmd = none ∧
      step s = .next (effect i { s with host := rest })) := by
  unfold step hostTurn
  cases hh : s.host with
  | nil => exact .inl ⟨rfl, by simp only⟩
  | cons e rest =>
    cases e with
    | reset content => exact .inr (.inl ⟨content, rest, rfl, by simp only⟩)
    | offer cmd =>
      simp only [offer, State.cmdReady]
      cases hf : s.faulted with
      | true =>
        have hf' : State.faulted { s with host := rest } = true := hf
        exact .inr (.inr (.inl ⟨cmd, rest, rfl, rfl, by simp [hf']⟩))
      | false =>
        have hf' : State.faulted { s with host := rest } = false := hf
        simp only [hf', Bool.not_false, if_true, issue]
        right; right; right
        cases hd : decode cmd with
        | illegalOpcode => exact .inl ⟨cmd, rest, _, cmd, rfl, trivial,
            by simp [commandFault, hd], .inl rfl, rfl⟩
        | reservedField => exact .inl ⟨cmd, rest, _, cmd, rfl, trivial,
            by simp [commandFault, hd], .inl rfl, rfl⟩
        | instr i =>
          cases hi : instrFault s.cfg s.v i with
          | some k =>
            exact .inl ⟨cmd, rest, k, encode i, rfl, trivial, by simp [commandFault, hd, hi],
              .inr ⟨i, hd, rfl⟩, exec_of_some hi⟩
          | none =>
            exact .inr ⟨cmd, rest, i, rfl, trivial, hd, by simp [commandFault, hd, hi], exec_of_none hi⟩

/-! ### One offer, one reset, one command at a time -/

theorem step_idle {s : State} (h : s.host = []) : step s = .next s := by simp [step, hostTurn, h]

theorem step_reset {s : State} {content : List Byte} {rest : List HostEvent}
    (h : s.host = .reset content :: rest) :
    step s = .next (applyReset content { s with host := rest }) := by simp [step, hostTurn, h]

theorem step_offer {s : State} {cmd : Command} {rest : List HostEvent}
    (h : s.host = .offer cmd :: rest) : step s = offer cmd { s with host := rest } := by
  simp [step, hostTurn, h]

theorem offer_ready {s : State} (cmd : Command) (h : s.faulted = false) :
    offer cmd s = issue cmd s := by simp [offer, State.cmdReady, h]

theorem offer_faulted {s : State} (cmd : Command) (h : s.faulted = true) :
    offer cmd s = .next s := by simp [offer, State.cmdReady, h]

theorem issue_instr {s : State} {cmd : Command} {i : Instr} (h : decode cmd = .instr i) :
    issue cmd s = exec i s := by simp [issue, h]

theorem commandFault_instr {cmd : Command} {i : Instr} (h : decode cmd = .instr i) (cfg : Config)
    (v : Word64) : commandFault cfg v cmd = instrFault cfg v i := by simp [commandFault, h]

/-- The word 0 is NOP, so no fault leaves FCMD 0 (R26). -/
theorem ne_zero_of_commandFault {cmd : Command} {cfg : Config} {v : Word64} {k : Cause}
    (h : commandFault cfg v cmd = some k) : cmd ≠ 0 := by
  rintro rfl
  rw [commandFault_instr (i := .nop) (by decide)] at h
  cases h

/-- A command whose check `k` is its first to fail takes that fault, entirely. -/
theorem takesFault_of_some {i : Instr} {s : State} {k : Cause}
    (h : instrFault s.cfg s.v i = some k) : TakesFault i s k :=
  ⟨_, exec_of_some h, raise_faultTaken _ _ _⟩

/-- PACK's checks pass exactly for a field inside its window that V fits (R81, R83). -/
theorem packFault_none_of {cfg : Config} {v : Word64} {base wbytes high low : Nat}
    (h : FieldInWindow cfg base wbytes high low) (hf : FitsField cfg v high low) :
    packFault cfg v base wbytes high low = none := by
  rw [packFault_none, fieldFault_none]
  refine ⟨h, fun hm => ?_⟩
  rw [← Bool.not_eq_true, overflows_iff]
  rcases hf with hf | hf | hf
  · simp [hm] at hf
  · omega
  · omega

/-- A field that is not inside its window fails one of the five checks of R81. -/
theorem fieldFault_some_of {cfg : Config} {base wbytes high low : Nat}
    (h : ¬ FieldInWindow cfg base wbytes high low) :
    ∃ k, fieldFault cfg base wbytes high low = some k ∧
      (k = .windowZero ∨ k = .bufferBounds ∨ k = .bitOrder ∨ k = .bitRange ∨ k = .fieldWidth) := by
  cases hf : fieldFault cfg base wbytes high low with
  | none => exact absurd (fieldFault_none.mp hf) h
  | some k =>
    refine ⟨k, rfl, ?_⟩
    unfold fieldFault at hf
    repeat' split at hf
    all_goals simp_all

/-- No command looks at what the host will do next. -/
theorem effect_withHost (i : Instr) (s : State) (rest : List HostEvent) :
    effect i { s with host := rest } = { effect i s with host := rest } := by cases i <;> rfl

end Sys2Proof.Machine
end

