-- ==== Sys2Proof/Tests/Slice0.lean ====
section
/-! SUPPORT. The model's own tests: the well-formedness smoke test, the decoder on words written out from
spec/30_encoding.md, one step per command on vectors of spec/95_test_vectors.md (named in each
docstring), and a witness for the hypotheses of every obligation. -/

namespace Sys2Proof.Tests

open Sys2Proof.Machine Sys2Proof.Claims

/-! ### States the tests start from -/

/-- A ready block of 64 bytes whose buffer starts with `content`, V = `v`, and the host idle. -/
def block (content : List Byte) (v : Word64) : State :=
  { State.launch exampleBuild content with v := v }

/-- The same block, built with other parameters. -/
def built (cfg : Config) (content : List Byte) (v : Word64) : State :=
  { State.launch cfg content with v := v }

/-- `PACK_OVERFLOW_MODE = truncate`. -/
def truncateBuild : Config := { exampleBuild with overflowMode := .truncate }

/-- `CRC_FEED = word32_reversed`. -/
def reversedBuild : Config := { exampleBuild with crcFeed := .word32Reversed }

/-- `s` with `cmd` as the host's only action. -/
def offering (s : State) (cmd : Command) : State := { s with host := [.offer cmd] }

/-- A block that has faulted: vector F1 was issued to it. -/
def faultedBlock : State := raise .windowZero 0x0100000000000000 (block [0xAA] 7)

/-- What a test looks at after one step that offers `cmd`. -/
def after {α : Type} (s : State) (cmd : Command) (look : State → α) : Option α :=
  match step (offering s cmd) with
  | .next t => some (look t)
  | .fault _ => none
  | .refused _ => none

/-- The first `n` bytes of BUF and ST. -/
def bytesAndStatus (n : Nat) (t : State) : List Byte × BitVec 8 := (bytesAt t.buf 0 n, t.st)

/-! ### Well-formedness: each check refuses a term -/

theorem test_wf_pack_base : (Instr.pack 65536 255 65535 65535).wf = false := by decide
theorem test_wf_pack_wbytes : (Instr.pack 65535 256 65535 65535).wf = false := by decide
theorem test_wf_pack_high : (Instr.pack 65535 255 65536 65535).wf = false := by decide
theorem test_wf_pack_low : (Instr.pack 65535 255 65535 65536).wf = false := by decide
theorem test_wf_unpack_base : (Instr.unpack 65536 255 65535 65535).wf = false := by decide
theorem test_wf_unpack_wbytes : (Instr.unpack 65535 256 65535 65535).wf = false := by decide
theorem test_wf_unpack_high : (Instr.unpack 65535 255 65536 65535).wf = false := by decide
theorem test_wf_unpack_low : (Instr.unpack 65535 255 65535 65536).wf = false := by decide
theorem test_wf_zero_base : (Instr.zero 65536 4294967295).wf = false := by decide
theorem test_wf_zero_len : (Instr.zero 65535 4294967296).wf = false := by decide
theorem test_wf_crc_base : (Instr.crc 65536 4294967295).wf = false := by decide
theorem test_wf_crc_len : (Instr.crc 65535 4294967296).wf = false := by decide
theorem test_wf_stb_addr : (Instr.stb 65536 0xFF).wf = false := by decide
theorem test_wf_ldb_addr : (Instr.ldb 65536).wf = false := by decide

/-- Every operand at the top of its field is well-formed. -/
theorem test_wf_top :
    (Instr.pack 65535 255 65535 65535).WellFormed ∧ (Instr.unpack 65535 255 65535 65535).WellFormed ∧
    (Instr.zero 65535 4294967295).WellFormed ∧ (Instr.crc 65535 4294967295).WellFormed ∧
    (Instr.stb 65535 0xFF).WellFormed ∧ (Instr.ldb 65535).WellFormed := by decide

/-! ### Decoding: words E1 to E24 of 95_test_vectors.md -/

/-- E1; and E17, its reserved bit 0. -/
theorem test_decode_nop :
    decode 0x0000000000000000 = .instr .nop ∧ decode 0x0000000000000001 = .reservedField := by decide

/-- E2, E3, E4, and E24 with every operand bit 1. -/
theorem test_decode_pack :
    decode 0x01000008003F0000 = .instr (.pack 0 8 63 0) ∧
    decode 0x010010040014000D = .instr (.pack 16 4 20 13) ∧
    decode 0x0100000C005F0058 = .instr (.pack 0 12 95 88) ∧
    decode 0x01FFFFFFFFFFFFFF = .instr (.pack 65535 255 65535 65535) := by decide

/-- E5, E6. -/
theorem test_decode_unpack :
    decode 0x02000004001F0018 = .instr (.unpack 0 4 31 24) ∧
    decode 0x0200050300170000 = .instr (.unpack 5 3 23 0) := by decide

/-- E7; and E18, its reserved bit 32. -/
theorem test_decode_zero :
    decode 0x030000000000000C = .instr (.zero 0 12) ∧
    decode 0x0300000100000000 = .reservedField := by decide

/-- E8, E9; and E19, its reserved bit 39. -/
theorem test_decode_crc :
    decode 0x0400000000000009 = .instr (.crc 0 9) ∧ decode 0x0400080000000001 = .instr (.crc 8 1) ∧
    decode 0x0400008000000000 = .reservedField := by decide

/-- E10; and E20, its reserved bit 32. -/
theorem test_decode_setvl :
    decode 0x0500000089ABCDEF = .instr (.setvl 0x89ABCDEF) ∧
    decode 0x0500000100000000 = .reservedField := by decide

/-- E11; and the top reserved bit, 55 (R71). -/
theorem test_decode_setvh :
    decode 0x0600000001234567 = .instr (.setvh 0x01234567) ∧
    decode 0x0680000001234567 = .reservedField := by decide

/-- E12; and E21, its reserved bit 8. -/
theorem test_decode_stb :
    decode 0x0700050000000036 = .instr (.stb 5 0x36) ∧
    decode 0x0700000000000100 = .reservedField := by decide

/-- E13; and E22, its reserved bit 0. -/
theorem test_decode_ldb :
    decode 0x0800050000000000 = .instr (.ldb 5) ∧ decode 0x0800000000000001 = .reservedField := by
  decide

/-- E14; and E23, its reserved bit 0. -/
theorem test_decode_mvcv :
    decode 0x0900000000000000 = .instr .mvcv ∧ decode 0x0900000000000001 = .reservedField := by decide

/-- E15, E16. -/
theorem test_decode_illegal :
    decode 0x0A00000000000000 = .illegalOpcode ∧ decode 0xFF00000000000000 = .illegalOpcode := by decide

/-- The encoder on E2, E9, E10, E12 and E24. -/
theorem test_encode :
    encode (.pack 0 8 63 0) = 0x01000008003F0000 ∧ encode (.crc 8 1) = 0x0400080000000001 ∧
    encode (.setvl 0x89ABCDEF) = 0x0500000089ABCDEF ∧ encode (.stb 5 0x36) = 0x0700050000000036 ∧
    encode (.pack 65535 255 65535 65535) = 0x01FFFFFFFFFFFFFF := by decide

/-! ### One step per command -/

/-- M11. -/
theorem test_step_nop :
    after (block [0xAA] 7) 0x0000000000000000 (fun t => t) = some (block [0xAA] 7) := by decide

/-- B3: an unaligned field leaves its neighbours' bits. -/
theorem test_step_pack_unaligned :
    after (block [0xFF, 0xFF, 0xFF, 0xFF] 0) 0x010000040014000D (bytesAndStatus 4) =
      some ([0xFF, 0xE0, 0x1F, 0xFF], 0) := by decide +kernel

/-- F11 and F16: V = 0x100 into eight bits. -/
theorem test_step_pack_overflow :
    after (block [] 0x100) 0x0100000800070000 (fun t => (t.st, t.fcmd)) =
      some (0x11, 0x0100000800070000) ∧
    after (built truncateBuild [1, 1, 1, 1, 1, 1, 1, 1] 0x100) 0x0100000800070000 (bytesAndStatus 8) =
      some ([1, 1, 1, 1, 1, 1, 1, 0], 0) := by decide +kernel

/-- B27. -/
theorem test_step_unpack :
    after (block [0x01, 0x23, 0x45, 0x67, 0x89, 0xAB, 0xCD, 0xEF] 0) 0x02000008003E0001
      (fun t => t.v) = some 0x0091A2B3C4D5E6F7 := by decide +kernel

/-- F8 and F9: 65 bits fault, 64 bits do not. -/
theorem test_step_unpack_width :
    after (block [] 0) 0x0200000900400000 (fun t => t.st) = some 0x0F ∧
    after (block [] 0) 0x0200000900470008 (fun t => t.st) = some 0x00 := by decide +kernel

/-- Z1. -/
theorem test_step_zero :
    after (block [1, 1, 1, 1, 0xDE, 0xAD, 0xBE, 0xEF, 1] 0) 0x0300040000000004 (bytesAndStatus 9) =
      some ([1, 1, 1, 1, 0, 0, 0, 0, 1], 0) := by decide +kernel

/-- Z3: the empty range after the end. -/
theorem test_step_zero_past_end :
    after (block [] 0) 0x0300410000000000 (fun t => t.st) = some 0x09 := by decide

/-- K8. -/
theorem test_step_crc :
    after (block [0x31, 0x32, 0x33, 0x34, 0x35, 0x36, 0x37, 0x38, 0x39] 0) 0x0400000000000009
      (fun t => t.c) = some 0xCBF43926 := by decide +kernel

/-- K33 and K37: the reversed feed. -/
theorem test_step_crc_reversed :
    after (built reversedBuild [0x31, 0x32, 0x33, 0x34, 0x35, 0x36, 0x37, 0x38] 0) 0x0400000000000008
      (fun t => t.c) = some 0xE3C97CBC ∧
    after (built reversedBuild [] 0) 0x0400000000000009 (fun t => t.st) = some 0x13 := by
  decide +kernel

/-- M1. -/
theorem test_step_setvl :
    after (block [] 0x0123456700000000) 0x0500000089ABCDEF (fun t => t.v) =
      some 0x0123456789ABCDEF := by decide

/-- M2. -/
theorem test_step_setvh :
    after (block [] 0x0000000089ABCDEF) 0x0600000001234567 (fun t => t.v) =
      some 0x0123456789ABCDEF := by decide

/-- M4. -/
theorem test_step_stb :
    after (block [1, 1, 1, 1, 1, 0xAA, 1] 9) 0x0700050000000036 (bytesAndStatus 7) =
      some ([1, 1, 1, 1, 1, 0x36, 1], 0) := by decide

/-- M8. -/
theorem test_step_stb_past_end :
    after (block [] 0) 0x0700400000000001 (fun t => (t.st, t.buf)) = some (0x09, []) := by decide

/-- M6, at the last byte, put there first. -/
theorem test_step_ldb :
    after { block [] 0 with buf := Memory.write [] 63 0xFF } 0x08003F0000000000
      (fun t => (t.v, t.st)) = some (0x00000000000000FF, 0) := by decide

/-- M7. -/
theorem test_step_ldb_past_end :
    after (block [] 7) 0x0800400000000000 (fun t => (t.v, t.st)) = some (7, 0x09) := by decide

/-- M9. -/
theorem test_step_mvcv :
    after { block [] 0xFFFFFFFFFFFFFFFF with c := 0xCBF43926 } 0x0900000000000000
      (fun t => (t.v, t.c)) = some (0x00000000CBF43926, 0xCBF43926) := by decide

/-- E15, E17: a word that is no command. -/
theorem test_step_no_command :
    after (block [] 0) 0x0A00000000000000 (fun t => (t.st, t.fcmd)) =
      some (0x03, 0x0A00000000000000) ∧
    after (block [] 0) 0x0000000000000001 (fun t => (t.st, t.fcmd)) =
      some (0x05, 0x0000000000000001) := by decide

/-- P4, command 2: STB offered to the faulted block changes nothing. -/
theorem test_step_faulted :
    after faultedBlock 0x0700000000000055 (fun t => t) = some faultedBlock := by decide

/-- The first command after reset, as the host asks for it. -/
theorem test_fetch_word :
    step (State.reset.withFetchWord 64 0x0700050000000036) = exec (.stb 5 0x36) State.reset := by rfl

/-! ### Witnesses: states and operands that meet the hypotheses of each obligation -/

theorem witness_ResetStateValues : 0 < exampleBuild.bufBytes ∧ 63 < exampleBuild.bufBytes := by decide

theorem witness_RstGivesResetStateFromAnyState :
    { faultedBlock with host := [.reset [0x55], .offer 0] }.host = .reset [0x55] :: [.offer 0] ∧
    63 < faultedBlock.cfg.bufBytes := by decide

theorem witness_StepRunsTheOfferedCommand :
    ((offering (block [] 0) 0x0800050000000000).host = .offer 0x0800050000000000 :: [] ∧
      (offering (block [] 0) 0x0800050000000000).faulted = false ∧
      decode 0x0800050000000000 = .instr (.ldb 5)) ∧
    ((block [] 0).faulted = false ∧ decodeTableWord 64 0x0800050000000000 = some (.ldb 5)) ∧
    faultedBlock.host = [] := by decide

/-- The two ends of the illegal opcodes. -/
theorem witness_UndecodableWordFaults_opcode :
    (offering (block [] 0) 0x0A00000000000000).host = .offer 0x0A00000000000000 :: [] ∧
    (offering (block [] 0) 0x0A00000000000000).faulted = false ∧
    0x0A ≤ op 0x0A00000000000000 ∧ 0x0A ≤ op 0xFFFFFFFFFFFFFFFF ∧
    op 0x01FFFFFFFFFFFFFF = 0x01 ∧ op 0x02FFFFFFFFFFFFFF = 0x02 := by decide

/-- The two ends of the reserved bits of each format. -/
theorem witness_UndecodableWordFaults_reserved :
    (offering (block [] 0) 0x0000000000000001).host = .offer 0x0000000000000001 :: [] ∧
    (offering (block [] 0) 0x0000000000000001).faulted = false ∧
    ∀ w ∈ [(0x0000000000000001 : Command), 0x0080000000000000, 0x0300000100000000, 0x0300008000000000,
      0x0400000100000000, 0x0400008000000000, 0x0500000100000000, 0x0580000000000000,
      0x0600000100000000, 0x0680000000000000, 0x0700000000000100, 0x0700008000000000,
      0x0800000000000001, 0x0800008000000000, 0x0900000000000001, 0x0980000000000000],
      ReservedSet w :=
  ⟨rfl, by decide, by simp [ReservedSet, op, bits]⟩

/-- With an illegal word offered, and with nothing offered. -/
theorem witness_FaultedBlockAcceptsNothing :
    ((offering faultedBlock 0x0A00000000000000).faulted = true ∧
      ¬ RstNext (offering faultedBlock 0x0A00000000000000)) ∧
    faultedBlock.faulted = true ∧ ¬ RstNext faultedBlock :=
  ⟨⟨by decide, by simp [RstNext, offering]⟩, by decide,
    fun ⟨_, _, h⟩ => List.cons_ne_nil _ _ (Eq.symm h)⟩

theorem witness_EveryCommandCompletesOrFaults :
    (offering (block [] 0) 0x0700050000000036).host = .offer 0x0700050000000036 :: [] ∧
    (offering (block [] 0) 0x0700050000000036).faulted = false := by decide

theorem witness_NopChangesNothing :
    op 0x0000000000000000 = 0x00 ∧ op 0x0080000000000000 = 0x00 ∧
    (offering faultedBlock 0).faulted = true ∧ (offering faultedBlock 0).host = .offer 0 :: [] := by
  decide

/-- With reserved bits 0, and with the top reserved bit 1. -/
theorem witness_SetvlWritesLowHalf :
    op 0x05000000FFFFFFFF = 0x05 ∧ op 0x0580000000000000 = 0x05 := by decide

@[inherit_doc witness_SetvlWritesLowHalf]
theorem witness_SetvhWritesHighHalf :
    op 0x06000000FFFFFFFF = 0x06 ∧ op 0x0680000000000000 = 0x06 := by decide

/-- The last address of BUF and the first after it. -/
theorem witness_StbStoresOneByte :
    (block [0xAA] 0).buf.wf ∧ 63 < (block [0xAA] 0).cfg.bufBytes ∧
    (block [0xAA] 0).cfg.bufBytes ≤ 64 ∧ op 0x0700050000000036 = 0x07 ∧
    op 0x0700008000000000 = 0x07 := by decide

@[inherit_doc witness_StbStoresOneByte]
theorem witness_LdbLoadsOneByte :
    63 < (block [0xAA] 0).cfg.bufBytes ∧ (block [0xAA] 0).cfg.bufBytes ≤ 64 ∧
    op 0x0800050000000000 = 0x08 ∧ op 0x0800008000000000 = 0x08 := by decide

theorem witness_MvcvCopiesChecksum :
    op 0x0900000000000000 = 0x09 ∧ op 0x0900000000000001 = 0x09 := by decide

/-- A field at the end of BUF that V fits at its largest (B12), one that takes 64 bits, one V does not
fit (F12), and the truncating block. -/
theorem witness_PackWritesField :
    (block [0xAA] 0).buf.wf ∧ FieldInWindow exampleBuild 56 8 62 0 ∧
    FitsField exampleBuild 0x7FFFFFFFFFFFFFFF 62 0 ∧ FieldInWindow exampleBuild 0 9 71 8 ∧
    FitsField exampleBuild 0xFFFFFFFFFFFFFFFF 71 8 ∧ FitsField truncateBuild 2 0 0 ∧
    (exampleBuild.overflowMode = .fault ∧ 0 - 0 + 1 < 64 ∧ 2 ^ (0 - 0 + 1) ≤ (2 : Word64).toNat) ∧
    op 0x01FFFFFFFFFFFFFF = 0x01 := by decide

/-- Each of the five checks fails somewhere. -/
theorem witness_PackWritesField_outside :
    ¬ FieldInWindow exampleBuild 0 0 0 0 ∧ ¬ FieldInWindow exampleBuild 57 8 63 0 ∧
    ¬ FieldInWindow exampleBuild 0 4 3 9 ∧ ¬ FieldInWindow exampleBuild 0 4 32 0 ∧
    ¬ FieldInWindow exampleBuild 0 9 64 0 := by decide

theorem witness_UnpackReadsField :
    FieldInWindow exampleBuild 0 9 71 8 ∧ FieldInWindow exampleBuild 63 1 0 0 ∧
    ¬ FieldInWindow exampleBuild 0 9 64 0 ∧ op 0x02FFFFFFFFFFFFFF = 0x02 := by decide

/-- The whole buffer, the empty range at its end, and one byte too many. -/
theorem witness_ZeroClearsRange :
    (block [0xAA] 0).buf.wf ∧ 0 + 64 ≤ exampleBuild.bufBytes ∧ 64 + 0 ≤ exampleBuild.bufBytes ∧
    exampleBuild.bufBytes < 60 + 5 ∧ op 0x030000000000000C = 0x03 ∧ op 0x0300000100000000 = 0x03 := by
  decide

/-- F1, F2, F5, F6, F8: the five clauses, each at the least operand that fails. -/
theorem witness_FieldChecksInOrder :
    (8 ≠ 0 ∧ exampleBuild.bufBytes < 57 + 8) ∧
    (4 ≠ 0 ∧ 0 + 4 ≤ exampleBuild.bufBytes ∧ 8 < 9) ∧
    (4 ≠ 0 ∧ 0 + 4 ≤ exampleBuild.bufBytes ∧ 0 ≤ 32 ∧ 8 * 4 - 1 < 32) ∧
    (9 ≠ 0 ∧ 0 + 9 ≤ exampleBuild.bufBytes ∧ 0 ≤ 64 ∧ 64 ≤ 8 * 9 - 1 ∧ 64 < 64 - 0 + 1) ∧
    (block [] 0).cfg = exampleBuild := by decide

theorem witness_BoundsAreChecked :
    (1 ≤ 8 ∧ exampleBuild.bufBytes < 57 + 8) ∧ exampleBuild.bufBytes < 65 + 0 ∧
    exampleBuild.bufBytes ≤ 64 ∧ (block [] 0).cfg = exampleBuild := by decide

theorem witness_PackThenUnpackReturnsValue :
    (block [0xFF, 0xFF, 0xFF, 0xFF] 0xA5).buf.wf ∧ FieldInWindow exampleBuild 0 4 20 13 ∧
    FitsField exampleBuild 0xA5 20 13 ∧ (0xA5 : Word64).toNat < 2 ^ (20 - 13 + 1) ∧
    FieldInWindow truncateBuild 0 4 20 13 ∧ FitsField truncateBuild 0x1A5 20 13 := by decide

theorem witness_UnpackThenPackRestoresBuf :
    (built truncateBuild [0xAB, 0xCD] 0).buf.wf ∧ FieldInWindow truncateBuild 0 2 11 4 := by decide

/-- The fields share a byte and no bit: bits 7:4 of byte 1 and bits 3:0 of it are theirs. -/
theorem witness_FieldsDisjoint : FieldsDisjoint 0 2 11 4 1 2 11 8 := by
  intro k k' h1 h2 h3 h4
  simp only [bitAddress]
  omega

theorem witness_PackIsLocal :
    (block [0xAB, 0xCD] 0x5).buf.wf ∧ FieldInWindow exampleBuild 0 2 11 4 ∧
    FieldInWindow exampleBuild 1 2 11 8 ∧ FitsField exampleBuild 0x5 11 4 ∧
    FieldsDisjoint 0 2 11 4 1 2 11 8 :=
  ⟨by decide, by decide, by decide, by decide, witness_FieldsDisjoint⟩

theorem witness_DisjointPacksCommute :
    (block [0xAB, 0xCD] 0).buf.wf ∧ FieldInWindow exampleBuild 0 2 11 4 ∧
    FieldInWindow exampleBuild 1 2 11 8 ∧ FitsField exampleBuild 0xFF 11 4 ∧
    FitsField exampleBuild 0xF 11 8 ∧ FieldsDisjoint 0 2 11 4 1 2 11 8 :=
  ⟨by decide, by decide, by decide, by decide, by decide, witness_FieldsDisjoint⟩

/-- B11: bits 35:28 of window (0, 8) are bits 11:4 of window (3, 2). -/
theorem witness_PackOneWindowUnpackAnother :
    (block [] 0xC3).buf.wf ∧ FieldInWindow exampleBuild 0 8 35 28 ∧
    FieldInWindow exampleBuild 3 2 11 4 ∧ FitsField exampleBuild 0xC3 35 28 ∧
    11 + 8 * (0 + 8) = 35 + 8 * (3 + 2) ∧ 4 + 8 * (0 + 8) = 28 + 8 * (3 + 2) := by decide

/-- B6: nine bytes of the window hold the field. -/
theorem witness_PackBytewiseForm :
    (block [] 0xFFFFFFFFFFFFFFFF).buf.wf ∧ FieldInWindow exampleBuild 0 16 100 37 ∧
    FitsField exampleBuild 0xFFFFFFFFFFFFFFFF 100 37 := by decide

theorem witness_UnpackBytewiseForm : FieldInWindow exampleBuild 0 16 100 37 := by decide

theorem witness_CrcAscendingRange :
    exampleBuild.crcFeed = .ascending ∧ 0 + 64 ≤ exampleBuild.bufBytes ∧
    exampleBuild.bufBytes < 0 + 65 ∧ op 0x0400000000000009 = 0x04 ∧ op 0x0400008000000000 = 0x04 := by
  decide

/-- Both lengths, and a buffer whose groups are palindromes (K35). -/
theorem witness_CrcReversedGroups :
    reversedBuild.crcFeed = .word32Reversed ∧ 0 + 64 ≤ reversedBuild.bufBytes ∧ 64 % 4 = 0 ∧
    0 + 9 ≤ reversedBuild.bufBytes ∧ 9 % 4 ≠ 0 ∧
    ∀ g, g < 8 / 4 →
      (built reversedBuild [1, 2, 2, 1, 3, 4, 4, 3] 0).buf.read (0 + 4 * g) =
        (built reversedBuild [1, 2, 2, 1, 3, 4, 4, 3] 0).buf.read (0 + 4 * g + 3) ∧
      (built reversedBuild [1, 2, 2, 1, 3, 4, 4, 3] 0).buf.read (0 + 4 * g + 1) =
        (built reversedBuild [1, 2, 2, 1, 3, 4, 4, 3] 0).buf.read (0 + 4 * g + 2) := by decide

theorem witness_CrcEmptyRange : 64 ≤ (block [] 0).cfg.bufBytes := by decide

theorem witness_CrcIsBitSerial : 4294967295 < 2 ^ 32 := by decide

theorem witness_CrcSingleBitSensitivity : 0 < 8 ∧ 7 < 8 := by decide

theorem witness_CrcIsAffine :
    [(0x31 : Byte), 0x32].length = [(0x00 : Byte), 0xFF].length ∧
    [(0x00 : Byte), 0xFF].length = [(0xAA : Byte), 0x55].length := by decide

theorem witness_StoredChecksumIsBigEndian :
    (block [0xAA] 0).buf.wf ∧ 60 + 4 ≤ (block [0xAA] 0).cfg.bufBytes := by decide

theorem witness_DecodeOfEncode :
    (Instr.pack 65535 255 65535 65535).WellFormed ∧ (Instr.stb 65535 0xFF).WellFormed ∧
    (Instr.crc 65535 4294967295).WellFormed := by decide

theorem witness_EncodeOfDecode :
    decode 0x01FFFFFFFFFFFFFF = .instr (.pack 65535 255 65535 65535) := by decide

/-- A word of the table's STB row, with its reserved bits 0 and not, and a word of no row. -/
theorem witness_DecodeAgreesWithOpcodeTable :
    (∃ row ∈ opcodeTable, (0x0700050000000036 : Command) &&& 0xFF00000000000000 = row.matchWord ∧
      (0x0700050000000036 : Command) &&& row.reservedMask = 0) ∧
    (∃ row ∈ opcodeTable, (0x0700050000000136 : Command) &&& 0xFF00000000000000 = row.matchWord ∧
      (0x0700050000000136 : Command) &&& row.reservedMask ≠ 0) ∧
    ∀ row ∈ opcodeTable, (0x0A00000000000000 : Command) &&& 0xFF00000000000000 ≠ row.matchWord :=
  ⟨⟨opcodeTable[7], List.getElem_mem _, by decide⟩,
    ⟨opcodeTable[7], List.getElem_mem _, by decide⟩, by simp [opcodeTable]⟩

/-- The smallest and the largest buffer. -/
theorem witness_InvariantHoldsAtReset :
    { exampleBuild with bufBytes := 1 }.Legal ∧ { exampleBuild with bufBytes := 65536 }.Legal := by
  decide

theorem inv_block : (block [0xAA] 7).Inv :=
  ⟨by decide, by decide, by decide, by decide, by decide, by decide⟩

theorem witness_StepKeepsInvariant :
    (offering (block [0xAA] 7) 0x0700050000000036).Inv ∧
    ∃ t, step (offering (block [0xAA] 7) 0x0700050000000036) = .next t ∧ t.buf.read 5 = 0x36 :=
  ⟨⟨by decide, by decide, by decide, by decide, by decide, by decide⟩, _, rfl, by decide⟩

/-- A step into the faulted state, and one that leaves it there. -/
theorem witness_StepKeepsFaultExplained :
    (offering (block [] 7) 0x0A00000000000000).FaultExplained ∧
    (∃ t, step (offering (block [] 7) 0x0A00000000000000) = .next t ∧ t.faulted = true) ∧
    (offering faultedBlock 0).FaultExplained ∧
    ∃ t, step (offering faultedBlock 0) = .next t ∧ t.faulted = true :=
  ⟨fun h => absurd h (by decide), ⟨_, rfl, by decide⟩, fun _ => ⟨.windowZero, by decide, by decide⟩,
    _, rfl, by decide⟩

/-- F4: two conditions hold, and BufferBounds is the one of least code. -/
theorem witness_OneCauseInPriorityOrder_fault :
    (offering (block [] 0) 0x01003C0800030009).host = .offer 0x01003C0800030009 :: [] ∧
    (offering (block [] 0) 0x01003C0800030009).faulted = false ∧
    Violates exampleBuild 0 0x01003C0800030009 .bitOrder ∧
    Violates exampleBuild 0 0x01003C0800030009 .bufferBounds ∧
    ∀ other, Violates exampleBuild 0 0x01003C0800030009 other →
      causeCode .bufferBounds ≤ causeCode other := by
  refine ⟨by decide, by decide, by unfold Violates; decide, by unfold Violates; decide, ?_⟩
  intro other
  cases other <;> simp only [Violates, ReservedSet] <;> decide

/-- F3: no condition holds. -/
theorem witness_OneCauseInPriorityOrder_none :
    (offering (block [] 0) 0x01003808003F0000).host = .offer 0x01003808003F0000 :: [] ∧
    (offering (block [] 0) 0x01003808003F0000).faulted = false ∧
    ∀ cause, ¬ Violates exampleBuild 0 0x01003808003F0000 cause := by
  refine ⟨by decide, by decide, fun cause => ?_⟩
  cases cause <;> simp only [Violates, ReservedSet] <;> decide

theorem witness_FaultsArePrecise :
    (offering (block [0xAA] 7) 0x0100000000000000).faulted = false ∧
    ∃ t, step (offering (block [0xAA] 7) 0x0100000000000000) = .next t ∧ t.faulted = true :=
  ⟨by decide, _, rfl, by decide⟩

theorem witness_OnlyRstLeavesFaultedState :
    { faultedBlock with host := [.reset []] }.faulted = true ∧
    RstNext { faultedBlock with host := [.reset []] } ∧
    ∃ t, step { faultedBlock with host := [.reset []] } = .next t ∧ t.faulted = false :=
  ⟨by decide, ⟨[], [], rfl⟩, _, rfl, by decide⟩

theorem witness_OnlyCrcWritesC :
    ∃ t, step (offering (block [0x61] 0) 0x0400000000000001) = .next t ∧
      t.c ≠ (offering (block [0x61] 0) 0x0400000000000001).c := ⟨_, rfl, by decide +kernel⟩

theorem witness_OnlyListedCommandsWriteV :
    ∃ t, step (offering (block [] 0) 0x0500000089ABCDEF) = .next t ∧
      t.v ≠ (offering (block [] 0) 0x0500000089ABCDEF).v := ⟨_, rfl, by decide⟩

theorem witness_OnlyPackZeroStbWriteBuf :
    ∃ t, step (offering (block [] 0) 0x0700050000000036) = .next t ∧
      t.buf ≠ (offering (block [] 0) 0x0700050000000036).buf := ⟨_, rfl, by decide⟩

theorem witness_OnlyFaultAndRstWriteStatus :
    ∃ t, step (offering (block [] 0) 0x0800400000000000) = .next t ∧
      t.st ≠ (offering (block [] 0) 0x0800400000000000).st ∧
      t.fcmd ≠ (offering (block [] 0) 0x0800400000000000).fcmd := ⟨_, rfl, by decide, by decide⟩

theorem witness_StepKeepsParameters :
    ∃ t, step (offering (built truncateBuild [] 0) 0x0800400000000000) = .next t ∧
      t.cfg = truncateBuild := ⟨_, rfl, rfl⟩

/-- STB 5 does not write bytes 4 and 6; LDB 5 reads byte 5, which two different buffers agree on. -/
theorem witness_BytesEachCommandTouches :
    ((block [0xAA] 0).buf.wf ∧ (∃ t, exec (.stb 5 0x36) (block [0xAA] 0) = .next t) ∧
      ¬ WritesByte (.stb 5 0x36) 4 ∧ ¬ WritesByte (.stb 5 0x36) 6) ∧
    (Memory.wf [(1, 9), (5, 7)] ∧ Memory.wf [(5, 7)] ∧
      (∀ a, ReadsByte (.ldb 5) a → Memory.read [(5, 7)] a = Memory.read [(1, 9), (5, 7)] a) ∧
      (∃ t, exec (.ldb 5) { block [] 0 with buf := [(1, 9), (5, 7)] } = .next t ∧
        t.faulted = false) ∧
      ∃ t, exec (.ldb 5) { block [] 0 with buf := [(5, 7)] } = .next t) :=
  ⟨⟨by decide, ⟨_, rfl⟩, by simp [WritesByte], by simp [WritesByte]⟩, by decide, by decide,
    fun a h => by obtain rfl : a = 5 := h; decide, ⟨_, rfl, by decide⟩, _, rfl⟩

theorem witness_RepeatedCommandChangesNothing :
    (block [0xAA] 5).buf.wf ∧ (∃ t, exec (.pack 0 2 11 4) (block [0xAA] 5) = .next t) ∧
    ∃ t, exec (.ldb 64) (block [0xAA] 5) = .next t := ⟨by decide, ⟨_, rfl⟩, _, rfl⟩

theorem witness_TruncateAgreesWithFaultMode :
    (offering (block [0xAA] 5) 0x0100000200070004).cfg.overflowMode = .fault ∧
    ∃ t, step (offering (block [0xAA] 5) 0x0100000200070004) = .next t ∧ t.faulted = false :=
  ⟨by decide, _, rfl, by decide⟩

theorem witness_PseudoInstructionEquivalences :
    (block [0xAA] 0xFF).buf.wf ∧ 63 < (block [0xAA] 0xFF).cfg.bufBytes ∧
    (block [0xAA] 0xFF).v.toNat < 256 := by decide

/-- P4: the second word faults, the third is not accepted. -/
theorem witness_RunFoldsTheCommandList :
    ({ block [0xAA] 0 with host := [0x05000000000001FF, 0x0100000100070000, 0].map .offer }.host =
      [0x05000000000001FF, 0x0100000100070000, (0 : Command)].map .offer) ∧
    [0x05000000000001FF, 0x0100000100070000, (0 : Command)] =
      [0x05000000000001FF, 0x0100000100070000] ++ [0] ∧
    ([0x05000000000001FF, 0x0100000100070000].foldl afterOffer
      { block [0xAA] 0 with host := [] }).faulted = true := by decide +kernel

end Sys2Proof.Tests
end

/-! ## What an issued word does: it completes, or it takes exactly its fault (R14) -/

namespace Sys2Proof

/-- A word with the opcode byte of `o` and no reserved bit set is rebuilt by the encoder from its
operands: the fields of each format tile the word (R61 to R68). -/
theorem encode_operands {cmd : Command} {o : Opcode}
    (ho : opcodeOf (bits cmd.toNat 63 56) = some o)
    (hr : reservedBits cmd.toNat (formatOf o) = 0) : encode (operands cmd.toNat o) = cmd := by
  have hlt := cmd.isLt
  apply BitVec.eq_of_toNat_eq
  obtain ⟨hb, rfl⟩ | ⟨hb, rfl⟩ | ⟨hb, rfl⟩ | ⟨hb, rfl⟩ | ⟨hb, rfl⟩ | ⟨hb, rfl⟩ | ⟨hb, rfl⟩ |
    ⟨hb, rfl⟩ | ⟨hb, rfl⟩ | ⟨hb, rfl⟩ := opcodeOf_eq_some ho <;>
  · simp only [reservedBits, formatOf, bits] at hr hb
    simp only [operands, encode, bits, BitVec.ofNat_eq_ofNat, BitVec.toNat_ofNat]
    omega

/-- Encoding what a word decodes to gives the word back. -/
theorem encode_of_decode {cmd : Command} {i : Instr} (h : decode cmd = .instr i) :
    encode i = cmd := by
  obtain ⟨ho, hr, hi⟩ := decode_eq_instr h
  exact hi ▸ encode_operands ho hr

namespace Machine

/-- An issued word that raises a fault takes it, and FCMD is the issued word itself, whether it was the
decoder or an operand check that failed (R142, R145). -/
theorem issue_of_commandFault_some {cmd : Command} {s : State} {k : Cause}
    (h : commandFault s.cfg s.v cmd = some k) : issue cmd s = .next (raise k cmd s) := by
  cases hd : decode cmd with
  | illegalOpcode => simp_all [commandFault, issue]
  | reservedField => simp_all [commandFault, issue]
  | instr i =>
    rw [commandFault_instr hd] at h
    rw [issue_instr hd, exec_of_some h, encode_of_decode hd]

/-- An issued word that raises no fault is a command, and its checks pass. -/
theorem decode_of_commandFault_none {cmd : Command} {cfg : Config} {v : Word64}
    (h : commandFault cfg v cmd = none) :
    ∃ i, decode cmd = .instr i ∧ instrFault cfg v i = none := by
  cases hd : decode cmd with
  | illegalOpcode => simp [commandFault, hd] at h
  | reservedField => simp [commandFault, hd] at h
  | instr i => exact ⟨i, rfl, commandFault_instr hd cfg v ▸ h⟩

/-- A ready block issues the word it is offered. -/
theorem step_issue {s : State} {cmd : Command} {rest : List HostEvent}
    (h : s.host = .offer cmd :: rest) (hf : s.faulted = false) :
    step s = issue cmd { s with host := rest } :=
  (step_offer h).trans (offer_ready cmd hf)

/-- No step stops: each of the five things a step can do answers a next state. -/
theorem step_answers (s : State) : ∃ t, step s = .next t := by
  obtain ⟨-, h⟩ | ⟨_, _, -, h⟩ | ⟨_, _, -, -, h⟩ | ⟨_, _, _, _, -, -, -, -, h⟩ |
    ⟨_, _, _, -, -, -, -, h⟩ := step_cases s <;> exact ⟨_, h⟩

/-- Settles O7: an issued word either fails its first check and takes that fault, or fails none and
completes in its command's effect, which leaves ST and FCMD alone. -/
theorem everyCommandCompletesOrFaults : Obligations.EveryCommandCompletesOrFaults := by
  refine ⟨step_answers, fun s cmd rest hh hf => ?_⟩
  cases hc : commandFault s.cfg s.v cmd with
  | some k =>
    exact ⟨_, (step_issue hh hf).trans (issue_of_commandFault_some hc), rfl,
      .inr ⟨k, rfl, raise_faultTaken _ _ _⟩⟩
  | none =>
    obtain ⟨i, hd, hi⟩ := decode_of_commandFault_none hc
    have hx : exec i { s with host := rest } = .next (effect i { s with host := rest }) :=
      exec_of_none hi
    refine ⟨_, (step_issue hh hf).trans ((issue_instr hd).trans hx), by simp,
      .inl ⟨hc, ⟨i, hd, hx⟩, ⟨by simp, by simp⟩, ?_⟩⟩
    simpa [State.cmdReady, State.faulted] using hf

end Machine

end Sys2Proof

/-! ## The bounds of BUF: which check fails past its end, and what an empty range does (R45) -/

namespace Sys2Proof.Machine

/-- A window that is not empty and ends past BUF fails the second check of R81. -/
theorem fieldFault_of_past_end {cfg : Config} {base wbytes : Nat} (hw : 1 ≤ wbytes)
    (hb : cfg.bufBytes < base + wbytes) (high low : Nat) :
    fieldFault cfg base wbytes high low = some .bufferBounds := by
  rw [fieldFault, if_neg (Nat.one_le_iff_ne_zero.mp hw), if_pos hb]

/-- PACK makes the checks of R81 first, whatever V holds. -/
theorem packFault_of_fieldFault_some {cfg : Config} {base wbytes high low : Nat} {k : Cause}
    (h : fieldFault cfg base wbytes high low = some k) (v : Word64) :
    packFault cfg v base wbytes high low = some k := by
  rw [packFault, h]

theorem rangeFault_of_past_end {cfg : Config} {base len : Nat} (h : cfg.bufBytes < base + len) :
    rangeFault cfg base len = some .bufferBounds := if_pos h

/-- CRC checks its range before its length, under either feed. -/
theorem crcFault_of_rangeFault_some {cfg : Config} {base len : Nat} {k : Cause}
    (h : rangeFault cfg base len = some k) : crcFault cfg base len = some k := by
  rw [crcFault, h]

theorem byteFault_of_past_end {cfg : Config} {addr : Nat} (h : cfg.bufBytes ≤ addr) :
    byteFault cfg addr = some .bufferBounds := if_pos h

/-- A range of no bytes that starts inside BUF or at its very end passes the bounds check (R45). -/
theorem rangeFault_empty {cfg : Config} {base : Nat} (h : base ≤ cfg.bufBytes) :
    rangeFault cfg base 0 = none := rangeFault_none.mpr h

/-- The length 0 is a multiple of 4, so CRC of such a range passes under either feed (R106). -/
theorem crcFault_empty {cfg : Config} {base : Nat} (h : base ≤ cfg.bufBytes) :
    crcFault cfg base 0 = none := crcFault_none.mpr ⟨h, fun _ => rfl⟩

/-- ZERO of no bytes has no effect. -/
@[simp] theorem effect_zero_empty (base : Nat) (s : State) : effect (.zero base 0) s = s := rfl

/-- Settles O18: past the end of BUF the bounds check is the first of its command to fail; an empty
range at the very end fails no check, and the command's effect touches nothing but C. -/
theorem boundsAreChecked : Obligations.BoundsAreChecked := by
  intro s
  refine ⟨fun base wbytes high low hw hb => ?field, fun base len h => ?range,
    fun addr imm8 h => ?byte, ?zeroEmpty, ?crcEmpty⟩
  case field =>
    have hf := fieldFault_of_past_end hw hb high low
    exact ⟨takesFault_of_some (packFault_of_fieldFault_some hf s.v), takesFault_of_some hf⟩
  case range =>
    have hr := rangeFault_of_past_end h
    exact ⟨takesFault_of_some hr, takesFault_of_some (crcFault_of_rangeFault_some hr)⟩
  case byte =>
    have ha := byteFault_of_past_end h
    exact ⟨takesFault_of_some ha, takesFault_of_some ha⟩
  case zeroEmpty =>
    rw [exec_of_none (i := .zero s.cfg.bufBytes 0) (rangeFault_empty le_rfl), effect_zero_empty]
  case crcEmpty =>
    exact ⟨_, exec_of_none (crcFault_empty le_rfl), fun _ => rfl, rfl, effect_st _ s,
      effect_fcmd _ s⟩

end Sys2Proof.Machine

/-! ## Words that are no command: unassigned opcodes and set reserved bits (R70, R71) -/

namespace Sys2Proof

/-- R71's list of reserved bits, read through the opcode map: the word's opcode is assigned and a
reserved bit of its format is 1. -/
theorem reservedSet_iff {cmd : Command} :
    Claims.ReservedSet cmd ↔ ∃ o, opcodeOf (Claims.op cmd) = some o ∧
      reservedBits cmd.toNat (formatOf o) ≠ 0 := by
  constructor
  · rintro (⟨ho | ho, hr⟩ | ⟨ho | ho, hr⟩ | ⟨ho, hr⟩ | ⟨ho, hr⟩ | ⟨ho | ho, hr⟩)
    · exact ⟨.zero, congrArg opcodeOf ho, hr⟩
    · exact ⟨.crc, congrArg opcodeOf ho, hr⟩
    · exact ⟨.setvl, congrArg opcodeOf ho, hr⟩
    · exact ⟨.setvh, congrArg opcodeOf ho, hr⟩
    · exact ⟨.stb, congrArg opcodeOf ho, hr⟩
    · exact ⟨.ldb, congrArg opcodeOf ho, hr⟩
    · exact ⟨.nop, congrArg opcodeOf ho, hr⟩
    · exact ⟨.mvcv, congrArg opcodeOf ho, hr⟩
  · rintro ⟨o, ho, hr⟩
    obtain ⟨hb, rfl⟩ | ⟨hb, rfl⟩ | ⟨hb, rfl⟩ | ⟨hb, rfl⟩ | ⟨hb, rfl⟩ | ⟨hb, rfl⟩ | ⟨hb, rfl⟩ |
      ⟨hb, rfl⟩ | ⟨hb, rfl⟩ | ⟨hb, rfl⟩ := opcodeOf_eq_some ho <;>
    simp_all [reservedBits, formatOf, Claims.ReservedSet]

/-- The decoder rejects a word with a set reserved bit, whatever its other bits (R71). -/
theorem decode_of_reservedSet {cmd : Command} (h : Claims.ReservedSet cmd) :
    decode cmd = .reservedField := by
  obtain ⟨o, ho, hr⟩ := reservedSet_iff.mp h
  rw [decode_of_opcode ho, if_neg hr]

/-- Format F has no reserved bit, so every word with such an opcode is a command (R61, R71). -/
theorem decode_of_formatF {cmd : Command} {o : Opcode} (ho : opcodeOf (Claims.op cmd) = some o)
    (hF : formatOf o = .F) : decode cmd = .instr (operands cmd.toNat o) := by
  rw [decode_of_opcode ho, hF]
  exact if_pos rfl

namespace Machine

theorem commandFault_of_illegalOpcode {cmd : Command} (h : decode cmd = .illegalOpcode)
    (cfg : Config) (v : Word64) : commandFault cfg v cmd = some .illegalOpcode := by
  rw [commandFault, h]

theorem commandFault_of_reservedField {cmd : Command} (h : decode cmd = .reservedField)
    (cfg : Config) (v : Word64) : commandFault cfg v cmd = some .reservedField := by
  rw [commandFault, h]

/-- A word that raises a fault and is offered to a ready block takes that fault, and the step changes
nothing else (R145). -/
theorem step_takesFault {s : State} {cmd : Command} {rest : List HostEvent} {k : Cause}
    (h : s.host = .offer cmd :: rest) (hf : s.faulted = false)
    (hc : commandFault s.cfg s.v cmd = some k) :
    ∃ t, step s = .next t ∧ FaultTaken k cmd { s with host := rest } t :=
  ⟨_, (step_issue h hf).trans (issue_of_commandFault_some hc), raise_faultTaken _ _ _⟩

/-- Settles O5: the decoder rejects an unassigned opcode and a set reserved bit by name, and a
rejection is the word's fault; PACK and UNPACK have format F. -/
theorem undecodableWordFaults : Obligations.UndecodableWordFaults := by
  refine fun s cmd rest hh hf => ⟨fun hop => ?opcode, fun hr => ?reserved, ?formatF⟩
  case opcode =>
    exact step_takesFault hh hf (commandFault_of_illegalOpcode (decode_of_unassigned hop) _ _)
  case reserved =>
    exact step_takesFault hh hf (commandFault_of_reservedField (decode_of_reservedSet hr) _ _)
  case formatF =>
    rintro (ho | ho)
    · exact ⟨_, decode_of_formatF (o := .pack) (congrArg opcodeOf ho) rfl⟩
    · exact ⟨_, decode_of_formatF (o := .unpack) (congrArg opcodeOf ho) rfl⟩

end Machine

end Sys2Proof

/-! ## The operand checks of PACK and UNPACK: which one fails first (R81) -/

namespace Sys2Proof.Machine

theorem fieldFault_of_empty_window (cfg : Config) (base high low : Nat) :
    fieldFault cfg base 0 high low = some .windowZero := if_pos rfl

/-- A window inside BUF leaves the three checks of the field's own bits (R81). -/
theorem fieldFault_of_window_in_buf {cfg : Config} {base wbytes : Nat} (hw : wbytes ≠ 0)
    (hb : base + wbytes ≤ cfg.bufBytes) (high low : Nat) :
    fieldFault cfg base wbytes high low =
      if high < low then some .bitOrder
      else if high > 8 * wbytes - 1 then some .bitRange
      else if fieldWidth high low > 64 then some .fieldWidth
      else none := by
  rw [fieldFault, if_neg hw, if_neg (Nat.not_lt.mpr hb)]

/-- PACK and UNPACK both make the checks of R81 before anything else, so both take the fault of the
first that fails. -/
theorem takesFault_of_fieldFault_some {i : Instr} {s : State} {base wbytes high low : Nat}
    {k : Cause} (hi : i = .pack base wbytes high low ∨ i = .unpack base wbytes high low)
    (h : fieldFault s.cfg base wbytes high low = some k) : TakesFault i s k := by
  rcases hi with rfl | rfl
  · exact takesFault_of_some (packFault_of_fieldFault_some h s.v)
  · exact takesFault_of_some h

/-- PACK and UNPACK of a field that is not inside its window take one of the five causes of R81. -/
theorem takesFault_of_not_fieldInWindow {i : Instr} {s : State} {base wbytes high low : Nat}
    (hi : i = .pack base wbytes high low ∨ i = .unpack base wbytes high low)
    (h : ¬ FieldInWindow s.cfg base wbytes high low) :
    ∃ cause ∈ Claims.fieldCauses, TakesFault i s cause := by
  obtain ⟨k, hf, hk⟩ := fieldFault_some_of h
  exact ⟨k, by simpa [Claims.fieldCauses] using hk, takesFault_of_fieldFault_some hi hf⟩

/-- Settles O17: each clause names the first check of R81 that fails, and PACK and UNPACK take its
fault. -/
theorem fieldChecksInOrder : Obligations.FieldChecksInOrder := by
  intro base wbytes high low s i hi
  refine ⟨fun hw => ?windowZero, fun hw hb => ?bufferBounds, fun hw hb ho => ?bitOrder,
    fun hw hb ho hr => ?bitRange, fun hw hb ho hr hn => ?fieldWidth⟩ <;>
    apply takesFault_of_fieldFault_some hi
  case windowZero => rw [hw, fieldFault_of_empty_window]
  case bufferBounds => exact fieldFault_of_past_end (Nat.one_le_iff_ne_zero.mpr hw) hb high low
  case bitOrder => rw [fieldFault_of_window_in_buf hw hb, if_pos ho]
  case bitRange => rw [fieldFault_of_window_in_buf hw hb, if_neg ho.not_gt, if_pos hr]
  case fieldWidth =>
    rw [fieldFault_of_window_in_buf hw hb, if_neg ho.not_gt, if_neg hr.not_gt]
    exact if_pos hn

end Sys2Proof.Machine

/-! ## PACK, UNPACK and ZERO: what each writes and what it leaves (R82, R84, R86) -/

namespace Sys2Proof.Machine

/-- A field inside its window ends at or below the window's top bit. -/
theorem high_lt_of_fieldInWindow {cfg : Config} {base wbytes high low : Nat}
    (h : FieldInWindow cfg base wbytes high low) : high < 8 * wbytes := by
  obtain ⟨hw, -, -, hr, -⟩ := h
  omega

/-- With every check of R81 passed and the mode `fault`, a V too wide for the field fails PACK's last
check (R82, R83). -/
theorem packFault_of_overflows {cfg : Config} {v : Word64} {base wbytes high low : Nat}
    (h : FieldInWindow cfg base wbytes high low) (hm : cfg.overflowMode = .fault)
    (ho : overflows v high low = true) :
    packFault cfg v base wbytes high low = some .valueOverflow := by
  rw [packFault, fieldFault_none.mpr h]
  exact if_pos ⟨hm, ho⟩

/-- PACK keeps a bit of BUF at which no bit of the field lives (R82). -/
theorem packBuf_read_getLsbD_of_not_field {m : Memory} (hm : m.wf) {base wbytes high low : Nat}
    (v : Word64) (h : low ≤ high) (hw : high < 8 * wbytes) {a i : Nat} (hi : i < 8)
    (ha : ∀ k, low ≤ k → k ≤ high → ¬ (a = bitAddress base wbytes k ∧ i = k % 8)) :
    ((packBuf m base wbytes high low v).read a).getLsbD i = (m.read a).getLsbD i := by
  rw [packBuf_read hm v h hw a i hi, if_neg]
  rintro ⟨h1, h2, hlow, hhigh⟩
  have haddr : a = bitAddress base wbytes (8 * (base + wbytes - 1 - a) + i) := by
    rw [bitAddress]
    omega
  exact ha _ hlow hhigh ⟨haddr, by omega⟩

/-- Settles O14: PACK's checks pass, and the bits of the buffer it writes are those of `packBuf`; or
the value is too wide; or a check of R81 fails. Format F has no reserved bit. -/
theorem packWritesField : Obligations.PackWritesField := by
  refine ⟨fun base wbytes high low s hm h => ⟨fun hf => ?completes, fun hmode hn hv => ?overflow⟩,
    fun _ _ _ _ _ h => takesFault_of_not_fieldInWindow (.inl rfl) h,
    fun _ hop => decode_of_formatF (o := .pack) (congrArg opcodeOf hop) rfl⟩
  case completes =>
    have ⟨_, _, hlow, _, _⟩ := h
    have hw := high_lt_of_fieldInWindow h
    refine ⟨_, exec_of_none (packFault_none_of h hf), fun k hk1 hk2 => ?fieldBit,
      fun a i hi ha => packBuf_read_getLsbD_of_not_field hm s.v hlow hw hi ha,
      fun a ha => packBuf_read_other hm s.v hlow hw ha, rfl, rfl, ⟨rfl, rfl⟩, rfl, rfl⟩
    case fieldBit =>
      exact (packBuf_windowBit hm s.v hlow hw (by omega)).trans (if_pos ⟨hk1, hk2⟩)
  case overflow =>
    exact takesFault_of_some (packFault_of_overflows h hmode (overflows_iff.mpr ⟨hn, hv⟩))

/-- Settles O15: UNPACK's checks pass, and the bits of V it writes are those of `unpackValue`, zeros
above the field; or a check of R81 fails. Format F has no reserved bit. -/
theorem unpackReadsField : Obligations.UnpackReadsField := by
  refine ⟨fun base wbytes high low s h => ?completes,
    fun _ _ _ _ _ h => takesFault_of_not_fieldInWindow (.inr rfl) h,
    fun _ hop => decode_of_formatF (o := .unpack) (congrArg opcodeOf hop) rfl⟩
  case completes =>
    have ⟨_, _, hlow, _, hn⟩ := h
    have hbit := unpackValue_getLsbD s.buf (base := base) (high_lt_of_fieldInWindow h) hlow hn
    refine ⟨_, exec_of_none (fieldFault_none.mpr h), fun j hj => ?fieldBit, fun j hj => ?above,
      fun _ => rfl, rfl, ⟨rfl, rfl⟩, rfl, rfl⟩
    case fieldBit => exact (hbit j).trans (by simp [hj])
    case above => exact (hbit j).trans (by simp [hj.not_gt])

/-- Settles O16: ZERO's check passes, and `zeroBytes` clears the range and no other byte; or the range
ends past BUF. The decoder checks the reserved bits of format R. -/
theorem zeroClearsRange : Obligations.ZeroClearsRange := by
  refine ⟨fun base len s hm => ⟨fun h => ?completes,
      fun h => takesFault_of_some (rangeFault_of_past_end h)⟩,
    fun _ hop => decode_of_opcode (o := .zero) (congrArg opcodeOf hop)⟩
  case completes =>
    have hread := read_zeroBytes hm base len
    refine ⟨_, exec_of_none (rangeFault_none.mpr h), fun a h1 h2 => ?inside, fun a ha => ?outside,
      rfl, rfl, ⟨rfl, rfl⟩, rfl, rfl⟩
    case inside => exact (hread a).trans (if_pos ⟨h1, h2⟩)
    case outside => exact (hread a).trans (if_neg (by omega))

end Sys2Proof.Machine

/-! ## CRC under the ascending feed, and MVCV (R104, R105, R114) -/

namespace Sys2Proof.Machine

/-- Under the ascending feed any length is legal: a range inside BUF passes both checks of CRC (R105). -/
theorem crcFault_of_ascending {cfg : Config} {base len : Nat} (hfeed : cfg.crcFeed = .ascending)
    (h : base + len ≤ cfg.bufBytes) : crcFault cfg base len = none :=
  crcFault_none.mpr ⟨h, fun hrev => by simp [hfeed] at hrev⟩

/-- The ascending feed as a map over the offsets (R105). -/
theorem crcFeedBytes_ascending (m : Memory) (base len : Nat) :
    crcFeedBytes .ascending m base len = (List.range len).map fun i => m.read (base + i) :=
  bytesAt_eq_map m base len

/-- CRC's effect on C under the ascending feed (R104, R105). -/
theorem effect_crc_c_of_ascending {s : State} (hfeed : s.cfg.crcFeed = .ascending)
    (base len : Nat) : (effect (.crc base len) s).c =
      crc32 ((List.range len).map fun i => s.buf.read (base + i)) := by
  rw [← crcFeedBytes_ascending, ← hfeed, effect]

/-- Settles O26: CRC's checks pass, and it takes in the bytes of its range in ascending address; or the
range ends past BUF. The decoder checks the reserved bits of format R. -/
theorem crcAscendingRange : Obligations.CrcAscendingRange := by
  refine ⟨fun base len s hfeed => ⟨fun h => ?completes, fun h => ?pastEnd⟩,
    fun _ hop => decode_of_opcode (o := .crc) (congrArg opcodeOf hop)⟩
  case completes =>
    exact ⟨_, exec_of_none (crcFault_of_ascending hfeed h), effect_crc_c_of_ascending hfeed base len,
      fun _ => rfl, rfl, ⟨rfl, rfl⟩, rfl, rfl⟩
  case pastEnd =>
    exact takesFault_of_some (crcFault_of_rangeFault_some (rangeFault_of_past_end h))

/-- Settles O13: MVCV has no check, and its effect is C widened to 64 bits, which keeps the number. The
decoder checks the reserved bits of format Z. -/
theorem mvcvCopiesChecksum : Obligations.MvcvCopiesChecksum := by
  refine ⟨fun s => ⟨_, exec_of_none (i := .mvcv) rfl, ?value, fun _ => rfl, rfl, ⟨rfl, rfl⟩,
      rfl, rfl⟩,
    fun _ hop => decode_of_opcode (o := .mvcv) (congrArg opcodeOf hop)⟩
  case value => exact BitVec.toNat_setWidth_of_le (by decide)

end Sys2Proof.Machine

/-! ## Data movement: NOP, SETVL, SETVH, STB and LDB (R121 to R125) -/

namespace Sys2Proof.Machine

/-- LDB's check is the checks of UNPACK for the one-byte window at its address: of R81's five, only the
bound of BUF depends on the address. -/
theorem fieldFault_byte (cfg : Config) (addr : Nat) :
    fieldFault cfg addr 1 7 0 = byteFault cfg addr := by
  simp [fieldFault, byteFault, fieldWidth, Nat.lt_succ_iff]

/-- A one-byte window as a scalar is its byte (R12). -/
theorem memRead_one (m : Memory) (addr : Nat) : memRead m addr 1 = (m.read addr).toNat := by
  simp [memRead]

/-- All eight bits of a one-byte window are its byte, zero-extended (R84). -/
theorem unpackValue_byte (m : Memory) (addr : Nat) :
    unpackValue m addr 1 7 0 = (m.read addr).setWidth 64 := by
  apply BitVec.eq_of_toNat_eq
  have hb := (m.read addr).isLt
  simp only [unpackValue, extractField, fieldWidth, memRead_one, BitVec.toNat_ofNat,
    BitVec.toNat_setWidth, Nat.shiftRight_zero]
  omega

/-- UNPACK of the one-byte window has the effect of LDB (R125). -/
theorem effect_unpack_byte (addr : Nat) (s : State) :
    effect (.unpack addr 1 7 0) s = effect (.ldb addr) s := by
  simp only [effect, unpackValue_byte]

/-- Settles O12: LDB's check passes, and its effect is the byte widened to 64 bits, which keeps the
number; UNPACK of the one-byte window has the same check and the same effect. Or the address is past the
end of BUF. The decoder checks the reserved bits of format A. -/
theorem ldbLoadsOneByte : Obligations.LdbLoadsOneByte := by
  refine ⟨fun addr s => ⟨fun h => ?completes, fun h => takesFault_of_some (byteFault_of_past_end h)⟩,
    fun _ hop => decode_of_opcode (o := .ldb) (congrArg opcodeOf hop)⟩
  case completes =>
    have hb : byteFault s.cfg addr = none := byteFault_none.mpr h
    refine ⟨_, exec_of_none hb, ?value, fun _ => rfl, rfl, ⟨rfl, rfl⟩, ⟨rfl, rfl⟩, ?unpack⟩
    case value => exact BitVec.toNat_setWidth_of_le (by decide)
    case unpack =>
      rw [← effect_unpack_byte]
      exact exec_of_none ((fieldFault_byte s.cfg addr).trans hb)

/-- Settles O8: NOP has no check and no effect, and a faulted block does not accept the word 0. The
decoder checks the reserved bits of format Z. -/
theorem nopChangesNothing : Obligations.NopChangesNothing := by
  refine ⟨fun s => exec_of_none (i := .nop) rfl,
    fun _ hop => decode_of_opcode (o := .nop) (congrArg opcodeOf hop), by decide,
    fun s rest hf hh => ?faulted⟩
  case faulted =>
    exact ⟨_, (step_offer hh).trans (offer_faulted 0 hf), rfl, rfl, rfl, rfl, rfl⟩

/-- Below bit 32, `hi ‖ lo` is `lo` (R10). -/
theorem joinHalves_getLsbD_of_lt (hi lo : Word32) {k : Nat} (hk : k < 32) :
    (joinHalves hi lo).getLsbD k = lo.getLsbD k :=
  (joinHalves_getLsbD hi lo k).trans (if_pos hk)

/-- From bit 32 on, `hi ‖ lo` is `hi` (R10). -/
theorem joinHalves_getLsbD_of_le (hi lo : Word32) {k : Nat} (hk : 32 ≤ k) :
    (joinHalves hi lo).getLsbD k = hi.getLsbD (k - 32) :=
  (joinHalves_getLsbD hi lo k).trans (if_neg hk.not_gt)

/-- A new low half leaves V's bits from 32 on (R122). -/
theorem joinHalves_highHalf_getLsbD (v : Word64) (lo : Word32) {k : Nat} (hk : 32 ≤ k) :
    (joinHalves (highHalf v) lo).getLsbD k = v.getLsbD k := by
  rw [joinHalves_getLsbD_of_le _ _ hk, highHalf_getLsbD, Nat.add_sub_of_le hk]

/-- A new high half leaves V's bits below 32 (R123). -/
theorem joinHalves_lowHalf_getLsbD (v : Word64) (hi : Word32) {k : Nat} (hk : k < 32) :
    (joinHalves hi (lowHalf v)).getLsbD k = v.getLsbD k := by
  rw [joinHalves_getLsbD_of_lt _ _ hk, lowHalf_getLsbD, decide_eq_true hk, Bool.true_and]

/-- Settles O9: SETVL has no check, and the halves it joins are the immediate below and V's own high half
above. The decoder checks the reserved bits of format I. -/
theorem setvlWritesLowHalf : Obligations.SetvlWritesLowHalf := by
  refine ⟨fun imm32 s => ⟨_, exec_of_none (i := .setvl imm32) rfl, fun k hk => ?low,
      fun k hk => ?high, fun _ => rfl, rfl, ⟨rfl, rfl⟩, rfl, rfl⟩,
    fun _ hop => decode_of_opcode (o := .setvl) (congrArg opcodeOf hop)⟩
  case low => exact joinHalves_getLsbD_of_lt _ imm32 hk
  case high => exact joinHalves_highHalf_getLsbD s.v imm32 hk

/-- Settles O10: SETVH has no check, and the halves it joins are the immediate above and V's own low half
below. The decoder checks the reserved bits of format I. -/
theorem setvhWritesHighHalf : Obligations.SetvhWritesHighHalf := by
  refine ⟨fun imm32 s => ⟨_, exec_of_none (i := .setvh imm32) rfl, fun k hk => ?high,
      fun k hk => ?low, fun _ => rfl, rfl, ⟨rfl, rfl⟩, rfl, rfl⟩,
    fun _ hop => decode_of_opcode (o := .setvh) (congrArg opcodeOf hop)⟩
  case high => exact joinHalves_getLsbD_of_le imm32 _ hk
  case low => exact joinHalves_lowHalf_getLsbD s.v imm32 hk

/-- Settles O11: STB's check passes, and its effect is one write, which only its own address reads back;
or the address is past the end of BUF. The decoder checks the reserved bits of format B. -/
theorem stbStoresOneByte : Obligations.StbStoresOneByte := by
  refine ⟨fun addr imm8 s hm =>
      ⟨fun h => ?completes, fun h => takesFault_of_some (byteFault_of_past_end h)⟩,
    fun _ hop => decode_of_opcode (o := .stb) (congrArg opcodeOf hop)⟩
  case completes =>
    have hread := Memory.read_write hm addr imm8
    exact ⟨_, exec_of_none (byteFault_none.mpr h), (hread addr).trans (if_pos rfl),
      fun a ha => (hread a).trans (if_neg ha.symm), rfl, rfl, ⟨rfl, rfl⟩, rfl, rfl⟩

end Sys2Proof.Machine

/-! ## The faulted state: only `rst` leaves it, and a fault writes nothing (R144 to R147) -/

namespace Sys2Proof.Machine

/-- In a faulted block, a step that is no `rst` moves on only what the host will do (R147). -/
theorem step_of_faulted {s : State} (hf : s.faulted = true) (hr : ¬ Claims.RstNext s) :
    ∃ rest, step s = .next { s with host := rest } := by
  cases hh : s.host with
  | nil => exact ⟨s.host, step_idle hh⟩
  | cons event rest =>
    cases event with
    | reset content => exact absurd ⟨content, rest, hh⟩ hr
    | offer cmd => exact ⟨rest, (step_offer hh).trans (offer_faulted cmd hf)⟩

/-- Settles O6: without `rst`, a faulted block keeps everything but what the host will do. -/
theorem faultedBlockAcceptsNothing : Obligations.FaultedBlockAcceptsNothing := by
  intro s hf
  have hready : s.cmdReady = false := by simp [State.cmdReady, hf]
  refine ⟨hready, fun hr => ?_⟩
  obtain ⟨rest, hstep⟩ := step_of_faulted hf hr
  exact ⟨_, hstep, rfl, rfl, rfl, ⟨rfl, rfl⟩, hready, rfl⟩

/-- Settles O44: a step that is no `rst` keeps ST.FAULT at 1, and `rst` clears the registers. -/
theorem onlyRstLeavesFaultedState : Obligations.OnlyRstLeavesFaultedState := by
  refine ⟨fun s t hf hstep ht => ?onlyRst, fun s _ hr => ?rst⟩
  case onlyRst =>
    by_contra hr
    obtain ⟨rest, hkept⟩ := step_of_faulted hf hr
    obtain rfl := Host.Outcome.next.inj (hkept.symm.trans hstep)
    exact Bool.false_ne_true (ht.symm.trans hf)
  case rst =>
    obtain ⟨content, rest, hh⟩ := hr
    exact ⟨_, step_reset hh, applyReset_faulted _ _, applyReset_cause _ _, rfl, rfl, rfl⟩

/-- A completed command leaves ST.FAULT as it was. -/
@[simp] theorem effect_faulted (i : Instr) (s : State) : (effect i s).faulted = s.faulted := by
  simp [State.faulted]

/-- The only way from a ready block to a faulted one is `raise` (R145). -/
theorem eq_raise_of_step_faults {s t : State} (hf : s.faulted = false) (hstep : step s = .next t)
    (ht : t.faulted = true) : ∃ k w rest, t = raise k w { s with host := rest } := by
  obtain ⟨-, h⟩ | ⟨content, rest, -, h⟩ | ⟨_, _, -, hf', -⟩ | ⟨_, rest, k, w, -, -, -, -, h⟩ |
    ⟨_, rest, i, -, -, -, -, h⟩ := step_cases s
  case inr.inr.inl => simp [hf] at hf'
  all_goals obtain rfl := Host.Outcome.next.inj (h.symm.trans hstep)
  · simp [hf] at ht
  · simp at ht
  · exact ⟨k, w, rest, rfl⟩
  · exact absurd ((effect_faulted i _).symm.trans ht) (Bool.eq_false_iff.mp hf)

/-- Settles O43: a step that faults is `raise`, which writes ST and FCMD alone. -/
theorem faultsArePrecise : Obligations.FaultsArePrecise := by
  intro s t hf hstep ht
  obtain ⟨k, w, rest, rfl⟩ := eq_raise_of_step_faults hf hstep ht
  exact ⟨rfl, rfl, rfl⟩

end Sys2Proof.Machine

/-! ## One fault, one cause: the checks run in ascending order of their codes (R141 to R143) -/

namespace Sys2Proof.Machine

open Claims

/-- `answer` is what checks made in ascending order of code, from the code `n` to below `m`, say of the
conditions `p`: a cause that is met, the first from the code `n` on; or that none of them is. -/
def FirstIn (p : Cause → Prop) (n m : Nat) (answer : Option Cause) : Prop :=
  match answer with
  | some k => p k ∧ ∀ j, p j → n ≤ causeCode j → causeCode k ≤ causeCode j
  | none => ∀ j, p j → n ≤ causeCode j → m ≤ causeCode j

section
variable {p : Cause → Prop} {n n' m m' : Nat} {k : Cause} {answer answer' : Option Cause}

/-- The checks may start earlier, at codes whose conditions are not met. -/
theorem FirstIn.start_earlier (h : FirstIn p n' m answer)
    (hgap : ∀ j, p j → n ≤ causeCode j → n' ≤ causeCode j) : FirstIn p n m answer := by
  cases answer with
  | some k => exact ⟨h.1, fun j hj hn => h.2 j hj (hgap j hj hn)⟩
  | none => exact fun j hj hn => h j hj (hgap j hj hn)

/-- The checks of a later range follow those of an earlier one that all passed. -/
theorem FirstIn.or (h : FirstIn p n m answer) (h' : answer = none → FirstIn p m m' answer') :
    FirstIn p n m' (answer.or answer') := by
  cases answer with
  | some k => exact h
  | none => exact (h' rfl).start_earlier h

/-- The checks may end later, at codes whose conditions are not met. -/
theorem FirstIn.end_later (h : FirstIn p n m answer)
    (hgap : ∀ j, p j → m ≤ causeCode j → m' ≤ causeCode j) : FirstIn p n m' answer :=
  answer.or_none ▸ h.or fun _ => hgap

/-- The check for the cause `k`, before those of greater codes. -/
theorem FirstIn.check {c : Prop} [Decidable c] (hk : p k ↔ c)
    (hgap : ∀ j, p j → n ≤ causeCode j → causeCode k ≤ causeCode j)
    (hrest : ¬ c → FirstIn p (causeCode k + 1) m answer) :
    FirstIn p n m (if c then some k else answer) := by
  split
  next hc => exact ⟨hk.mpr hc, hgap⟩
  next hc =>
    refine (hrest hc).start_earlier fun j hj hn => (hgap j hj hn).lt_of_ne fun hcode => ?_
    exact hc (hk.mp (causeCode_injective hcode ▸ hj))

/-- Checks of all nine codes answer the cause that is met and has the least of them. -/
theorem FirstIn.eq_some (h : FirstIn p 1 10 answer) (hk : p k)
    (hleast : ∀ j, p j → causeCode k ≤ causeCode j) : answer = some k := by
  cases answer with
  | some j =>
    obtain ⟨hj, hfirst⟩ := h
    have hcode := (hfirst k hk (causeCode_range k).1).antisymm (hleast j hj)
    rw [causeCode_injective hcode]
  | none => exact absurd (h k hk (causeCode_range k).1) (causeCode_range k).2.not_gt

/-- Checks of which no condition is met pass. -/
theorem FirstIn.eq_none (h : FirstIn p n m answer) (hp : ∀ j, ¬ p j) : answer = none := by
  cases answer with
  | some k => exact absurd h.1 (hp k)
  | none => rfl

end

theorem packFault_eq_or (cfg : Config) (v : Word64) (base wbytes high low : Nat) :
    packFault cfg v base wbytes high low = (fieldFault cfg base wbytes high low).or
      (if cfg.overflowMode = .fault ∧ overflows v high low = true then some .valueOverflow
        else none) := by
  rw [packFault]
  cases fieldFault cfg base wbytes high low <;> rfl

theorem crcFault_eq_or (cfg : Config) (base len : Nat) :
    crcFault cfg base len = (rangeFault cfg base len).or
      (if cfg.crcFeed = .word32Reversed ∧ len % 4 ≠ 0 then some .crcLength else none) := by
  rw [crcFault]
  cases rangeFault cfg base len <;> rfl

section
variable {cmd : Command} (cfg : Config) (v : Word64)

/-- The checks of R81 are those of the codes 3 to 7, in their order. -/
theorem firstIn_fieldFault (hop : op cmd = 0x01 ∨ op cmd = 0x02) :
    FirstIn (Violates cfg v cmd) 3 8 (fieldFault cfg (bits cmd.toNat 55 40) (bits cmd.toNat 39 32)
      (bits cmd.toNat 31 16) (bits cmd.toNat 15 0)) := by
  have hbounds : Violates cfg v cmd .bufferBounds ↔
      bits cmd.toNat 55 40 + bits cmd.toNat 39 32 > cfg.bufBytes := by
    rcases hop with hop | hop <;> simp [Violates, hop]
  refine .check (and_iff_right hop) (fun _ _ h => h) fun hw => ?_
  refine .check hbounds (fun _ _ h => h) fun _ => ?_
  refine .check (and_iff_right hop) (fun _ _ h => h) fun _ => ?_
  refine .check ((and_iff_right hop).trans (by omega)) (fun _ _ h => h) fun _ => ?_
  exact .check ((and_iff_right hop).trans (by rw [fieldWidth]; omega)) (fun _ _ h => h)
    fun _ _ _ h => h

/-- PACK adds the check of code 8 (R82). -/
theorem firstIn_packFault (hop : op cmd = 0x01) :
    FirstIn (Violates cfg v cmd) 3 10 (packFault cfg v (bits cmd.toNat 55 40)
      (bits cmd.toNat 39 32) (bits cmd.toNat 31 16) (bits cmd.toNat 15 0)) := by
  rw [packFault_eq_or]
  refine (firstIn_fieldFault cfg v (.inl hop)).or fun hfield => ?_
  obtain ⟨-, -, hlow, -, -⟩ := fieldFault_none.mp hfield
  refine .check ?overflow (fun _ _ h => h) fun _ j hj hn => ?_
  case overflow => simp [Violates, hop, hlow, overflows_iff]
  cases j <;> simp_all [Violates, causeCode]

/-- UNPACK has no check beyond those of R81 (R84). -/
theorem firstIn_unpackFault (hop : op cmd = 0x02) :
    FirstIn (Violates cfg v cmd) 3 10 (fieldFault cfg (bits cmd.toNat 55 40)
      (bits cmd.toNat 39 32) (bits cmd.toNat 31 16) (bits cmd.toNat 15 0)) := by
  refine (firstIn_fieldFault cfg v (.inr hop)).end_later fun j hj hn => ?_
  cases j <;> simp_all [Violates, causeCode]

/-- Outside format F the bounds check is the only operand check below code 9 (R141). -/
theorem firstIn_boundsFault {c : Prop} [Decidable c] (hF : op cmd ≠ 0x01 ∧ op cmd ≠ 0x02)
    (hc : Violates cfg v cmd .bufferBounds ↔ c) :
    FirstIn (Violates cfg v cmd) 3 9 (if c then some .bufferBounds else none) := by
  refine .check hc (fun j hj hn => ?below) fun _ j hj hn => ?above
  case below => cases j <;> simp_all [Violates, causeCode]
  case above => cases j <;> simp_all [Violates, causeCode]

/-- Only CRC has a length check (R106). -/
theorem code_past_crcLength (hop : op cmd ≠ 0x04) (j : Cause) (hj : Violates cfg v cmd j)
    (hn : 9 ≤ causeCode j) : 10 ≤ causeCode j := by
  refine hn.lt_of_ne fun hcode => hop ?_
  obtain rfl : .crcLength = j := causeCode_injective hcode
  exact hj.1

/-- ZERO has the one check of code 4 (R86). -/
theorem firstIn_zeroFault (hop : op cmd = 0x03) :
    FirstIn (Violates cfg v cmd) 3 10
      (rangeFault cfg (bits cmd.toNat 55 40) (bits cmd.toNat 31 0)) :=
  (firstIn_boundsFault cfg v (by omega) (by simp [Violates, hop])).end_later
    (code_past_crcLength cfg v (by omega))

/-- CRC has the checks of the codes 4 and 9 (R104, R106). -/
theorem firstIn_crcFault (hop : op cmd = 0x04) :
    FirstIn (Violates cfg v cmd) 3 10
      (crcFault cfg (bits cmd.toNat 55 40) (bits cmd.toNat 31 0)) := by
  rw [crcFault_eq_or]
  refine (firstIn_boundsFault cfg v (by omega) (by simp [Violates, hop])).or fun _ => ?_
  exact .check (and_iff_right hop) (fun _ _ h => h) fun _ _ _ h => h

/-- STB and LDB have the one check of code 4 (R124, R125). -/
theorem firstIn_byteFault (hop : op cmd = 0x07 ∨ op cmd = 0x08) :
    FirstIn (Violates cfg v cmd) 3 10 (byteFault cfg (bits cmd.toNat 55 40)) := by
  have hbounds : Violates cfg v cmd .bufferBounds ↔ bits cmd.toNat 55 40 ≥ cfg.bufBytes := by
    rcases hop with hop | hop <;> simp [Violates, hop]
  exact (firstIn_boundsFault cfg v (by omega) hbounds).end_later
    (code_past_crcLength cfg v (by omega))

/-- NOP, SETVL, SETVH and MVCV have no check (R121, R122, R123, R114). -/
theorem firstIn_noFault (hop : op cmd = 0x00 ∨ op cmd = 0x05 ∨ op cmd = 0x06 ∨ op cmd = 0x09) :
    FirstIn (Violates cfg v cmd) 3 10 none := by
  intro j hj hn
  rcases hop with hop | hop | hop | hop <;> cases j <;> simp_all [Violates, causeCode]

/-- Every command makes its operand checks in ascending order of their codes (R143). -/
theorem firstIn_instrFault {o : Opcode} (ho : opcodeOf (op cmd) = some o) :
    FirstIn (Violates cfg v cmd) 3 10 (instrFault cfg v (operands cmd.toNat o)) := by
  obtain ⟨hop, rfl⟩ | ⟨hop, rfl⟩ | ⟨hop, rfl⟩ | ⟨hop, rfl⟩ | ⟨hop, rfl⟩ | ⟨hop, rfl⟩ |
    ⟨hop, rfl⟩ | ⟨hop, rfl⟩ | ⟨hop, rfl⟩ | ⟨hop, rfl⟩ := opcodeOf_eq_some ho
  · exact firstIn_noFault cfg v (.inl hop)
  · exact firstIn_packFault cfg v hop
  · exact firstIn_unpackFault cfg v hop
  · exact firstIn_zeroFault cfg v hop
  · exact firstIn_crcFault cfg v hop
  · exact firstIn_noFault cfg v (.inr (.inl hop))
  · exact firstIn_noFault cfg v (.inr (.inr (.inl hop)))
  · exact firstIn_byteFault cfg v (.inl hop)
  · exact firstIn_byteFault cfg v (.inr hop)
  · exact firstIn_noFault cfg v (.inr (.inr (.inr hop)))

/-- A word of an assigned opcode is checked for its reserved bits, then for its operands (R69). -/
theorem commandFault_of_opcode {o : Opcode} (ho : opcodeOf (op cmd) = some o) :
    commandFault cfg v cmd =
      if reservedBits cmd.toNat (formatOf o) ≠ 0 then some .reservedField
      else instrFault cfg v (operands cmd.toNat o) := by
  by_cases hr : reservedBits cmd.toNat (formatOf o) = 0
  · rw [if_neg (not_not_intro hr), commandFault_instr ((decode_of_opcode ho).trans (if_pos hr))]
  · rw [if_pos hr, commandFault_of_reservedField ((decode_of_opcode ho).trans (if_neg hr))]

/-- R71's list of reserved bits, for a word whose opcode is known. -/
theorem reservedSet_iff_of_opcode {o : Opcode} (ho : opcodeOf (op cmd) = some o) :
    ReservedSet cmd ↔ reservedBits cmd.toNat (formatOf o) ≠ 0 := by
  simp [reservedSet_iff, ho]

/-- Every word is checked in ascending order of all nine codes (R69, R143). -/
theorem firstIn_commandFault : FirstIn (Violates cfg v cmd) 1 10 (commandFault cfg v cmd) := by
  cases ho : opcodeOf (op cmd) with
  | none =>
    have hop : 0x09 < op cmd := opcodeOf_eq_none.mp ho
    rw [commandFault_of_illegalOpcode (decode_of_unassigned hop)]
    exact ⟨hop, fun _ _ h => h⟩
  | some o =>
    have hop : ¬ Violates cfg v cmd .illegalOpcode := (opcodeOf_le ho).not_gt
    rw [commandFault_of_opcode cfg v ho]
    refine .check (reservedSet_iff_of_opcode ho) (fun j hj _ => ?_)
      fun _ => firstIn_instrFault cfg v ho
    have hcode : causeCode .illegalOpcode ≠ causeCode j := fun h =>
      hop (causeCode_injective h ▸ hj)
    exact (causeCode_range j).1.lt_of_ne hcode

end

/-- A word that raises no fault and is offered to a ready block completes, and ST and FCMD stay. -/
theorem step_completes {s : State} {cmd : Command} {rest : List HostEvent}
    (h : s.host = .offer cmd :: rest) (hf : s.faulted = false)
    (hc : commandFault s.cfg s.v cmd = none) :
    ∃ i, decode cmd = .instr i ∧ step s = .next (effect i { s with host := rest }) := by
  obtain ⟨i, hd, hi⟩ := decode_of_commandFault_none hc
  exact ⟨i, hd, (step_issue h hf).trans ((issue_instr hd).trans (exec_of_none hi))⟩

/-- Settles O42: the block's checks run in ascending order of code, so the condition of least code
is the fault, and a word that meets none completes. -/
theorem oneCauseInPriorityOrder : Obligations.OneCauseInPriorityOrder := by
  refine ⟨rfl, fun s cmd rest hh hf => ⟨fun cause hk hleast => ?fault, fun hnone => ?completes⟩⟩
  case fault =>
    exact step_takesFault hh hf ((firstIn_commandFault s.cfg s.v).eq_some hk hleast)
  case completes =>
    obtain ⟨i, -, hstep⟩ :=
      step_completes hh hf ((firstIn_commandFault s.cfg s.v).eq_none hnone)
    exact ⟨_, hstep, (effect_faulted i _).trans hf, effect_st i _, effect_fcmd i _⟩

end Sys2Proof.Machine

/-! ## The encoder and the decoder: inverse to each other, and as the opcode table has it (R60 to R71) -/

namespace Sys2Proof

/-- What the encoder puts in the opcode byte and in the reserved bits, for every command. -/
theorem encode_layout (i : Instr) : Laws.EncodeLayout.Statement i := by
  cases i with
  | nop => exact Laws.EncodeLayout.nop
  | pack base wbytes high low => exact Laws.EncodeLayout.pack base wbytes high low
  | unpack base wbytes high low => exact Laws.EncodeLayout.unpack base wbytes high low
  | zero base len => exact Laws.EncodeLayout.zero base len
  | crc base len => exact Laws.EncodeLayout.crc base len
  | setvl imm32 => exact Laws.EncodeLayout.setvl imm32
  | setvh imm32 => exact Laws.EncodeLayout.setvh imm32
  | stb addr imm8 => exact Laws.EncodeLayout.stb addr imm8
  | ldb addr => exact Laws.EncodeLayout.ldb addr
  | mvcv => exact Laws.EncodeLayout.mvcv

/-- The operand fields of an encoded command hold its operands: each fits its field, so none runs into
the next (R61 to R67). -/
theorem operands_encode {i : Instr} (h : i.WellFormed) :
    operands (encode i).toNat i.opcode = i := by
  cases i with
  | nop => rfl
  | mvcv => rfl
  | setvl imm32 | setvh imm32 =>
    have := imm32.isLt
    simp only [Instr.opcode, operands, encode, bits, BitVec.toNat_ofNat]
    congr 1
    apply BitVec.eq_of_toNat_eq
    rw [BitVec.toNat_ofNat]
    omega
  | stb addr imm8 =>
    have := imm8.isLt
    simp only [Instr.WellFormed, Instr.wf, decide_eq_true_eq] at h
    simp only [Instr.opcode, operands, encode, bits, BitVec.toNat_ofNat]
    congr 1
    · omega
    · apply BitVec.eq_of_toNat_eq
      rw [BitVec.toNat_ofNat]
      omega
  | pack base wbytes high low | unpack base wbytes high low | zero base len | crc base len
  | ldb addr =>
    simp only [Instr.WellFormed, Instr.wf, Bool.and_eq_true, decide_eq_true_eq] at h
    simp only [Instr.opcode, operands, encode, bits, BitVec.toNat_ofNat]
    congr 1 <;> omega

/-- Settles O36: the encoded word has the command's opcode and no reserved bit set, so it decodes to its
operand fields, and those hold the command's operands. -/
theorem decodeOfEncode : Obligations.DecodeOfEncode := by
  intro i hi
  obtain ⟨ho, hr⟩ := encode_layout i hi
  rw [decode_of_opcode ho, if_pos hr, operands_encode hi]

theorem bits_lt (x hi lo : Nat) : bits x hi lo < 2 ^ (hi - lo + 1) := Nat.mod_lt _ (by positivity)

/-- Every operand read from a word fits its field (R67). -/
theorem operands_wellFormed (w : Nat) (o : Opcode) : (operands w o).WellFormed := by
  have hbase := bits_lt w 55 40
  have hwbytes := bits_lt w 39 32
  have hhigh := bits_lt w 31 16
  have hlow := bits_lt w 15 0
  have hlen := bits_lt w 31 0
  cases o <;> simp [operands, Instr.WellFormed, Instr.wf] <;> omega

/-- Settles O37: the fields of a word's format tile it, and an operand read from a field fits it. -/
theorem encodeOfDecode : Obligations.EncodeOfDecode := by
  intro cmd i h
  obtain ⟨-, -, hi⟩ := decode_eq_instr h
  exact ⟨encode_of_decode h, hi ▸ operands_wellFormed _ _⟩

/-- A contiguous mask cuts out the bits `hi` to `lo` and leaves them in place. -/
theorem and_fieldMask (x : Nat) {hi lo : Nat} (h : lo ≤ hi) :
    x &&& Machine.fieldMask hi lo = bits x hi lo * 2 ^ lo := by
  refine Nat.eq_of_testBit_eq fun k => ?_
  rw [Nat.testBit_and, Machine.fieldMask_testBit _ _ _ h, bits, Nat.testBit_mul_two_pow,
    Nat.testBit_mod_two_pow, Nat.testBit_div_two_pow]
  by_cases hk : lo ≤ k
  · rw [Nat.sub_add_cancel hk, Bool.and_comm]
    simp [hk, show k - lo < hi - lo + 1 ↔ k ≤ hi by omega]
  · simp [hk]

/-- A contiguous mask finds no bit of a word set exactly if the field it covers is 0. -/
theorem and_mask_eq_zero_iff {mask : Command} {hi lo : Nat} (h : lo ≤ hi)
    (hmask : mask.toNat = Machine.fieldMask hi lo) (cmd : Command) :
    cmd &&& mask = 0 ↔ bits cmd.toNat hi lo = 0 := by
  rw [← BitVec.toNat_inj, BitVec.toNat_and, hmask, and_fieldMask _ h]
  simp

/-- The mask of every row of the table cuts out the opcode byte. -/
theorem and_opcodeMask (cmd : Command) :
    cmd &&& 0xFF00000000000000 = BitVec.ofNat 64 (Claims.op cmd * 2 ^ 56) := by
  apply BitVec.eq_of_toNat_eq
  rw [BitVec.toNat_and, show (0xFF00000000000000 : Command).toNat = Machine.fieldMask 63 56 by decide,
    and_fieldMask _ (by decide), BitVec.toNat_ofNat]
  exact (Nat.mod_eq_of_lt (Nat.mul_lt_mul_of_pos_right (bits_lt cmd.toNat 63 56) (by decide))).symm

/-- What the row `row` of the opcode table says of the opcode `o`: its byte, the reserved bits of its
format, and the commands it makes. -/
structure Describes (row : Claims.Row) (o : Opcode) : Prop where
  opcode : ∃ n, opcodeOf n = some o ∧ row.matchWord = BitVec.ofNat 64 (n * 2 ^ 56)
  reserved : ∀ cmd : Command,
    cmd &&& row.reservedMask = 0 ↔ reservedBits cmd.toNat (formatOf o) = 0
  command : ∀ w, row.isInstr (operands w o)

/-- Each row of the table describes one of the ten opcodes (R68, R71). -/
theorem exists_describes {row : Claims.Row} (h : row ∈ Claims.opcodeTable) :
    ∃ o, Describes row o := by
  simp only [Claims.opcodeTable, List.mem_cons, List.not_mem_nil, or_false] at h
  rcases h with rfl | rfl | rfl | rfl | rfl | rfl | rfl | rfl | rfl | rfl
  · exact ⟨.nop, ⟨0, rfl, rfl⟩, and_mask_eq_zero_iff (by decide) (by decide),
      fun _ => rfl⟩
  · exact ⟨.pack, ⟨1, rfl, rfl⟩, fun cmd => by simp [reservedBits, formatOf],
      fun _ => ⟨_, _, _, _, rfl⟩⟩
  · exact ⟨.unpack, ⟨2, rfl, rfl⟩, fun cmd => by simp [reservedBits, formatOf],
      fun _ => ⟨_, _, _, _, rfl⟩⟩
  · exact ⟨.zero, ⟨3, rfl, rfl⟩, and_mask_eq_zero_iff (by decide) (by decide),
      fun _ => ⟨_, _, rfl⟩⟩
  · exact ⟨.crc, ⟨4, rfl, rfl⟩, and_mask_eq_zero_iff (by decide) (by decide),
      fun _ => ⟨_, _, rfl⟩⟩
  · exact ⟨.setvl, ⟨5, rfl, rfl⟩, and_mask_eq_zero_iff (by decide) (by decide),
      fun _ => ⟨_, rfl⟩⟩
  · exact ⟨.setvh, ⟨6, rfl, rfl⟩, and_mask_eq_zero_iff (by decide) (by decide),
      fun _ => ⟨_, rfl⟩⟩
  · exact ⟨.stb, ⟨7, rfl, rfl⟩, and_mask_eq_zero_iff (by decide) (by decide),
      fun _ => ⟨_, _, rfl⟩⟩
  · exact ⟨.ldb, ⟨8, rfl, rfl⟩, and_mask_eq_zero_iff (by decide) (by decide),
      fun _ => ⟨_, rfl⟩⟩
  · exact ⟨.mvcv, ⟨9, rfl, rfl⟩, and_mask_eq_zero_iff (by decide) (by decide),
      fun _ => rfl⟩

/-- A word that a row selects has the opcode the row describes. -/
theorem Describes.opcodeOf_eq {row : Claims.Row} {o : Opcode} (hd : Describes row o) {cmd : Command}
    (h : cmd &&& 0xFF00000000000000 = row.matchWord) : opcodeOf (Claims.op cmd) = some o := by
  obtain ⟨n, hn, hm⟩ := hd.opcode
  have heq := congrArg BitVec.toNat ((and_opcodeMask cmd).symm.trans (h.trans hm))
  have hop : Claims.op cmd < 2 ^ 8 := bits_lt cmd.toNat 63 56
  have hle := opcodeOf_le hn
  simp only [BitVec.toNat_ofNat] at heq
  rw [show Claims.op cmd = n by omega, hn]

/-- Every assigned opcode byte has a row. -/
theorem matchWord_mem_opcodeTable :
    ∀ n < 10, BitVec.ofNat 64 (n * 2 ^ 56) ∈ Claims.opcodeTable.map Claims.Row.matchWord := by
  decide

/-- Settles O38: the row a word selects describes its opcode, and the decoder reads the word by its
opcode; an assigned opcode always selects a row. -/
theorem decodeAgreesWithOpcodeTable : Obligations.DecodeAgreesWithOpcodeTable := by
  refine ⟨fun cmd row hrow hmatch => ?selected, fun cmd hnone => ?unselected, by decide⟩
  case selected =>
    obtain ⟨o, hd⟩ := exists_describes hrow
    rw [decode_of_opcode (hd.opcodeOf_eq hmatch), ne_eq, hd.reserved]
    exact ⟨fun hr => ⟨_, if_pos hr, hd.command _⟩, fun hr => if_neg hr⟩
  case unselected =>
    refine decode_of_unassigned (Nat.lt_of_not_le fun hle => ?_)
    obtain ⟨row, hrow, hmatch⟩ :=
      List.mem_map.mp (matchWord_mem_opcodeTable _ (Nat.lt_succ_of_le hle))
    exact hnone row hrow ((and_opcodeMask cmd).trans hmatch.symm)

/-- Settles O3: each worked word is decoded by computation. -/
theorem workedEncodingsDecode : Obligations.WorkedEncodingsDecode := by
  unfold Obligations.WorkedEncodingsDecode
  decide

end Sys2Proof

/-! ## What every step keeps, and what a step that changes a register is (R20 to R29, R142 to R149) -/

namespace Sys2Proof.Machine

open Claims

/-- The five things a step can do, as a relation between the state and the next. -/
inductive StepsTo (s : State) : State → Prop
  /-- the host has nothing to do -/
  | idle (hhost : s.host = []) : StepsTo s s
  /-- the host drives `rst` -/
  | rst (content : List Byte) (rest : List HostEvent) (hhost : s.host = .reset content :: rest) :
      StepsTo s (applyReset content { s with host := rest })
  /-- a faulted block does not accept the word -/
  | rejects (cmd : Command) (rest : List HostEvent) (hhost : s.host = .offer cmd :: rest)
      (hf : s.faulted = true) : StepsTo s { s with host := rest }
  /-- the word raises a fault -/
  | faults (cmd : Command) (rest : List HostEvent) (k : Cause) (hhost : s.host = .offer cmd :: rest)
      (hf : s.faulted = false) (hc : commandFault s.cfg s.v cmd = some k) :
      StepsTo s (raise k cmd { s with host := rest })
  /-- the word is a command and completes -/
  | completes (cmd : Command) (rest : List HostEvent) (i : Instr)
      (hhost : s.host = .offer cmd :: rest) (hf : s.faulted = false) (hd : decode cmd = .instr i)
      (hi : instrFault s.cfg s.v i = none) : StepsTo s (effect i { s with host := rest })

/-- `step` does nothing but those. -/
theorem stepsTo_of_step {s t : State} (h : step s = .next t) : StepsTo s t := by
  obtain ⟨hh, hs⟩ | ⟨content, rest, hh, hs⟩ | ⟨cmd, rest, hh, hf, hs⟩ |
    ⟨cmd, rest, k, w, hh, hf, hc, hw, hs⟩ | ⟨cmd, rest, i, hh, hf, hd, hc, hs⟩ := step_cases s <;>
    obtain rfl := Host.Outcome.next.inj (hs.symm.trans h)
  · exact .idle hh
  · exact .rst content rest hh
  · exact .rejects cmd rest hh hf
  · obtain rfl : w = cmd := by
      obtain rfl | ⟨i, hd, rfl⟩ := hw
      · rfl
      · exact encode_of_decode hd
    exact .faults w rest k hh hf hc
  · exact .completes cmd rest i hh hf hd ((commandFault_instr hd _ _).symm.trans hc)

/-- A step completes a command whose checks pass. -/
theorem step_of_completes {s : State} {cmd : Command} {rest : List HostEvent} {i : Instr}
    (hhost : s.host = .offer cmd :: rest) (hf : s.faulted = false) (hd : decode cmd = .instr i)
    (hi : instrFault s.cfg s.v i = none) : step s = .next (effect i { s with host := rest }) :=
  (step_issue hhost hf).trans ((issue_instr hd).trans (exec_of_none hi))

/-! ### Invariants -/

/-- The invariant says nothing of what the host will do. -/
theorem State.Inv.withHost {s : State} (h : s.Inv) (rest : List HostEvent) :
    State.Inv { s with host := rest } :=
  ⟨h.legal, h.buf, h.reserved, h.cause_range, h.fault_iff_cause, h.fcmd_iff⟩

/-- `rst` brings the invariant about whatever BUF holds afterwards, if the parameters are legal. -/
theorem inv_applyReset {s : State} (h : s.cfg.Legal) (content : List Byte) :
    (applyReset content s).Inv where
  legal := h
  buf := ⟨Memory.ofBytes_wf _ _, Memory.ofBytes_below _ _⟩
  reserved := applyReset_stReserved _ _
  cause_range := by simp
  fault_iff_cause := by simp
  fcmd_iff := by simp

/-- A fault keeps the invariant: its code is 1 to 9, and the word that raised it is not 0. -/
theorem State.Inv.raise {s : State} (h : s.Inv) (k : Cause) {cmd : Command} (hcmd : cmd ≠ 0) :
    (raise k cmd s).Inv where
  legal := h.legal
  buf := h.buf
  reserved := raise_stReserved _ _ _
  cause_range := by simpa using (causeCode_range k).2
  fault_iff_cause := by simpa using Nat.one_le_iff_ne_zero.mp (causeCode_range k).1
  fcmd_iff := by simpa using hcmd

/-- A completed command leaves CAUSE as it was. -/
@[simp] theorem effect_cause (i : Instr) (s : State) : (effect i s).cause = s.cause := by
  simp [State.cause]

/-- A completed command keeps the invariant: it leaves the parameters, ST and FCMD, and writes BUF only
inside its bounds. -/
theorem State.Inv.effect {s : State} (h : s.Inv) {i : Instr}
    (hi : instrFault s.cfg s.v i = none) : (effect i s).Inv where
  legal := by simpa using h.legal
  buf := effect_bufWf h.buf hi
  reserved := by simpa [State.stReserved] using h.reserved
  cause_range := by simpa using h.cause_range
  fault_iff_cause := by simpa using h.fault_iff_cause
  fcmd_iff := by simpa using h.fcmd_iff

/-- Settles O40: each of the five things a step can do keeps the invariant. -/
theorem stepKeepsInvariant : Obligations.StepKeepsInvariant := by
  intro s t hinv hstep
  cases stepsTo_of_step hstep with
  | idle => exact hinv
  | rst content rest => exact inv_applyReset (s := { s with host := rest }) hinv.legal content
  | rejects cmd rest => exact hinv.withHost rest
  | faults cmd rest k _ _ hc => exact (hinv.withHost rest).raise k (ne_zero_of_commandFault hc)
  | completes cmd rest i _ _ _ hi => exact (hinv.withHost rest).effect (i := i) hi

/-- A state that is not faulted has no fault to explain. -/
theorem faultExplained_of_not_faulted {s : State} (h : s.faulted = false) : s.FaultExplained :=
  fun hf => absurd hf (Bool.eq_false_iff.mp h)

/-- Settles O41: a fault is recorded with the word, the parameters and V that raised it, and no step in
the faulted state but `rst` changes any of them. -/
theorem stepKeepsFaultExplained : Obligations.StepKeepsFaultExplained := by
  intro s t hexp hstep
  cases stepsTo_of_step hstep with
  | idle => exact hexp
  | rst content rest => exact faultExplained_of_not_faulted (applyReset_faulted _ _)
  | rejects cmd rest => exact hexp
  | faults cmd rest k _ _ hc => exact fun _ => ⟨k, hc, raise_cause _ _ _⟩
  | completes cmd rest i _ hf _ hi =>
    exact faultExplained_of_not_faulted ((effect_faulted i _).trans hf)

/-- Settles O49: no step's next state has other parameters. -/
theorem stepKeepsParameters : Obligations.StepKeepsParameters := by
  intro s t hstep
  cases stepsTo_of_step hstep with
  | idle => rfl
  | rst content rest => exact applyReset_cfg _ _
  | rejects cmd rest => rfl
  | faults cmd rest k => exact raise_cfg _ _ _
  | completes cmd rest i => exact effect_cfg i _

/-! ### The two overflow modes -/

/-- Building the block with `truncate` takes away a check and adds none (R83). -/
theorem instrFault_truncate {cfg : Config} {v : Word64} {i : Instr}
    (h : instrFault cfg v i = none) :
    instrFault { cfg with overflowMode := .truncate } v i = none := by
  cases i with
  | pack base wbytes high low => exact packFault_none.mpr ⟨(packFault_none.mp h).1, nofun⟩
  | _ => exact h

/-- No command's effect depends on the overflow mode. -/
theorem effect_truncating (i : Instr) (s : State) :
    effect i (truncating s) = truncating (effect i s) := by cases i <;> rfl

/-- Settles O52: a step that does not fault rests, resets or completes a command, and the overflow mode
makes a difference to none of these. -/
theorem truncateAgreesWithFaultMode : Obligations.TruncateAgreesWithFaultMode := by
  intro s t _ hstep hready
  cases stepsTo_of_step hstep with
  | idle hhost => exact step_idle hhost
  | rst content rest hhost => exact step_reset hhost
  | rejects cmd rest _ hf => exact absurd (hf.symm.trans hready) Bool.true_eq_false.mp
  | faults cmd rest k => exact absurd hready (by simp)
  | completes cmd rest i hhost hf hd hi =>
    rw [← effect_truncating]
    exact step_of_completes (s := truncating s) hhost hf hd (instrFault_truncate hi)

/-! ### Which commands write which part of the state -/

/-- Of the commands only CRC writes C (R21). -/
theorem opcode_of_effect_c_ne {i : Instr} {s : State} (h : (effect i s).c ≠ s.c) :
    i.opcode = .crc := by
  cases i with
  | crc base len => rfl
  | _ => exact absurd rfl h

/-- Of the commands only PACK, ZERO and STB write BUF (R29). -/
theorem opcode_of_effect_buf_ne {i : Instr} {s : State} (h : (effect i s).buf ≠ s.buf) :
    i.opcode = .pack ∨ i.opcode = .zero ∨ i.opcode = .stb := by
  cases i with
  | pack base wbytes high low => exact .inl rfl
  | zero base len => exact .inr (.inl rfl)
  | stb addr imm8 => exact .inr (.inr rfl)
  | _ => exact absurd rfl h

/-- A step that changes a field that no fault writes is `rst`, or completes a command that changes it. -/
theorem rst_or_completes {α : Type} (field : State → α) {s t : State} (hstep : step s = .next t)
    (hhost : ∀ u rest, field { u with host := rest } = field u)
    (hraise : ∀ k w u, field (raise k w u) = field u) (hne : field t ≠ field s) :
    RstNext s ∨ ∃ cmd rest i, IssueNext s cmd ∧ decode cmd = .instr i ∧
      t = effect i { s with host := rest } := by
  cases stepsTo_of_step hstep with
  | idle => exact absurd rfl hne
  | rst content rest h => exact .inl ⟨content, rest, h⟩
  | rejects cmd rest => exact absurd (hhost s rest) hne
  | faults cmd rest k => exact absurd ((hraise k cmd _).trans (hhost s rest)) hne
  | completes cmd rest i h hf hd => exact .inr ⟨cmd, rest, i, ⟨hf, rest, h⟩, hd, rfl⟩

/-- The opcode byte of a word is the byte of the opcode of the command it decodes to. -/
theorem op_of_decode {cmd : Command} {i : Instr} {o : Opcode} {n : Nat} (hd : decode cmd = .instr i)
    (hn : opcodeOf n = some o) (ho : i.opcode = o) : op cmd = n :=
  opcode_of_decode hd (hn.trans (congrArg some ho.symm))

/-- Settles O45: no fault writes C, and of the completed commands only CRC does. -/
theorem onlyCrcWritesC : Obligations.OnlyCrcWritesC := by
  intro s t hstep hne
  refine (rst_or_completes State.c hstep (fun _ _ => rfl) (fun _ _ _ => rfl) hne).imp_right ?_
  rintro ⟨cmd, rest, i, hissue, hd, rfl⟩
  exact ⟨cmd, hissue, op_of_decode hd rfl (opcode_of_effect_c_ne hne)⟩

/-- Settles O47: no fault writes BUF, and of the completed commands only PACK, ZERO and STB do. -/
theorem onlyPackZeroStbWriteBuf : Obligations.OnlyPackZeroStbWriteBuf := by
  intro s t hstep hne
  refine (rst_or_completes State.buf hstep (fun _ _ => rfl) (fun _ _ _ => rfl) hne).imp_right ?_
  rintro ⟨cmd, rest, i, hissue, hd, rfl⟩
  exact ⟨cmd, hissue, (opcode_of_effect_buf_ne hne).imp (op_of_decode hd rfl)
    (.imp (op_of_decode hd rfl) (op_of_decode hd rfl))⟩

/-- Settles O46: no fault writes V, and of the completed commands only the five listed do; SETVL and
SETVH join one new half to the old other half. -/
theorem onlyListedCommandsWriteV : Obligations.OnlyListedCommandsWriteV := by
  intro s t hstep hne
  refine (rst_or_completes State.v hstep (fun _ _ => rfl) (fun _ _ _ => rfl) hne).imp_right ?_
  rintro ⟨cmd, rest, i, hissue, hd, rfl⟩
  refine ⟨cmd, hissue, ?_⟩
  cases i with
  | unpack base wbytes high low => exact .inl (opcode_of_decode hd rfl)
  | setvl imm32 =>
    exact .inr (.inl ⟨opcode_of_decode hd rfl, fun k hk => joinHalves_highHalf_getLsbD s.v imm32 hk⟩)
  | setvh imm32 =>
    exact .inr (.inr (.inl
      ⟨opcode_of_decode hd rfl, fun k hk => joinHalves_lowHalf_getLsbD s.v imm32 hk⟩))
  | ldb addr => exact .inr (.inr (.inr (.inl (opcode_of_decode hd rfl))))
  | mvcv => exact .inr (.inr (.inr (.inr (opcode_of_decode hd rfl))))
  | _ => exact absurd rfl hne

/-- Settles O48: of the things a step can do, only `rst` and a fault write ST and FCMD. -/
theorem onlyFaultAndRstWriteStatus : Obligations.OnlyFaultAndRstWriteStatus := by
  intro s t hstep hne
  cases stepsTo_of_step hstep with
  | idle => simp at hne
  | rst content rest hhost => exact .inl ⟨content, rest, hhost⟩
  | rejects cmd rest => simp at hne
  | faults cmd rest k hhost hf hc =>
    exact .inr ⟨cmd, k, ⟨hf, rest, hhost⟩, hc, raise_faulted _ _ _, raise_cause _ _ _, rfl⟩
  | completes cmd rest i => simp at hne

end Sys2Proof.Machine

/-! ## Reset, the offered command and runs of a command list (R23, R34, R160 to R164) -/

namespace Sys2Proof.Machine

open Claims

/-- After `rst` BUF holds the content it carries: inside the buffer the cut to its size is not seen. -/
theorem applyReset_read (content : List Byte) (s : State) {a : Nat} (ha : a < s.cfg.bufBytes) :
    (applyReset content s).buf.read a = content.getD a 0 := by
  have hread := Memory.read_ofBytes 0 (content.take s.cfg.bufBytes) a
  rw [Nat.zero_add] at hread
  rw [applyReset_buf, hread]
  simp [unlistedByte, ha]

theorem applyReset_outputs (content : List Byte) (s : State) :
    (applyReset content s).outputs =
      { cmdReady := true, vOut := 0, cOut := 0, stOut := 0, fcmdOut := 0 } := by
  simp [State.outputs]

/-- Settles O1: the launch state is a reset of the given parameters. -/
theorem resetStateValues : Obligations.ResetStateValues := by
  refine ⟨fun cfg content => ?launch, by decide, by decide, by decide⟩
  exact ⟨rfl, rfl, rfl, applyReset_faulted _ _, applyReset_cause _ _, rfl, applyReset_cmdReady _ _,
    rfl, fun a ha => applyReset_read content { State.reset with cfg := cfg } ha⟩

/-- Settles O2: the step is `applyReset`, whatever the state was. -/
theorem rstGivesResetStateFromAnyState : Obligations.RstGivesResetStateFromAnyState := by
  intro s content rest hh
  exact ⟨_, step_reset hh, applyReset_outputs _ _, rfl, rfl,
    fun a ha => applyReset_read content { s with host := rest } ha⟩

theorem decode_of_decodeTableWord {nbits w : Nat} {i : Instr}
    (h : decodeTableWord nbits w = some i) : decode (tableWord nbits w) = .instr i := by
  unfold decodeTableWord at h
  split at h
  next j hd => rw [hd, Option.some.inj h]
  all_goals simp at h

/-- Settles O4: an offer to a ready block issues the word, and a decoded word is executed;
`withFetchWord` is such an offer. -/
theorem stepRunsTheOfferedCommand : Obligations.StepRunsTheOfferedCommand := by
  refine ⟨fun s cmd rest i hh hf hd => ?offered, fun s w i hf hw => ?fetched, fun s => step_idle⟩
  case offered => exact (step_issue hh hf).trans (issue_instr hd)
  case fetched =>
    exact (step_issue (offerFirst_host _ s) hf).trans (issue_instr (decode_of_decodeTableWord hw))

theorem inv_launch {cfg : Config} (h : cfg.Legal) (content : List Byte) :
    (State.launch cfg content).Inv :=
  inv_applyReset (s := { State.reset with cfg := cfg }) h content

/-- `State.reset` is the launch of the example build with nothing in BUF. -/
theorem launch_exampleBuild_nil : State.launch exampleBuild [] = State.reset := rfl

/-- Settles O39: a launch is a reset, which brings the invariant about and leaves no fault. -/
theorem invariantHoldsAtReset : Obligations.InvariantHoldsAtReset := by
  intro cfg content hcfg
  have hexample : exampleBuild.Legal := by decide
  refine ⟨inv_launch hcfg content, faultExplained_of_not_faulted (applyReset_faulted _ _), ?_, ?_⟩
  · exact launch_exampleBuild_nil ▸ inv_launch hexample []
  · exact faultExplained_of_not_faulted rfl

/-- An offer answers what `afterOffer` names, and does not look at what the host will do next. -/
theorem offer_withHost (cmd : Command) (s : State) (rest : List HostEvent) :
    offer cmd { s with host := rest } = .next { afterOffer s cmd with host := rest } := by
  cases hf : s.faulted with
  | true =>
    rw [afterOffer, offer_faulted cmd hf]
    exact offer_faulted cmd hf
  | false =>
    rw [afterOffer, offer_ready cmd hf, offer_ready (s := { s with host := rest }) cmd hf]
    cases hc : commandFault s.cfg s.v cmd with
    | some k =>
      rw [issue_of_commandFault_some hc]
      exact issue_of_commandFault_some hc
    | none =>
      obtain ⟨i, hd, hi⟩ := decode_of_commandFault_none hc
      rw [issue_instr hd, issue_instr hd, exec_of_none hi,
        exec_of_none (s := { s with host := rest }) hi]
      exact congrArg _ (effect_withHost i s rest)

/-- An offer leaves what the host will do next as it is. -/
@[simp] theorem afterOffer_host (s : State) (cmd : Command) : (afterOffer s cmd).host = s.host := by
  rw [afterOffer, show offer cmd s = _ from offer_withHost cmd s s.host]

/-- A faulted state is left by no list of offers (R147). -/
theorem foldl_afterOffer_of_faulted {s : State} (h : s.faulted = true) (cmds : List Command) :
    cmds.foldl afterOffer s = s := by
  induction cmds with
  | nil => rfl
  | cons cmd cmds ih =>
    rw [List.foldl_cons, show afterOffer s cmd = s by rw [afterOffer, offer_faulted cmd h], ih]

/-- A step on an offer, said of the same block with an idle host. -/
theorem step_eq_afterOffer {s : State} {cmd : Command} {rest : List HostEvent}
    (h : s.host = .offer cmd :: rest) :
    step s = .next { afterOffer { s with host := [] } cmd with host := rest } :=
  (step_offer h).trans (offer_withHost cmd { s with host := [] } rest)

theorem core_run_succ {s t : State} (h : step s = .next t) (n : Nat) :
    Sys2Proof.core.run (n + 1) s = Sys2Proof.core.run n t := by
  have hcore : Sys2Proof.core.step s = .next t := h
  simp only [Host.Core.run, hcore]

theorem withHost_eq_self {s : State} {rest : List HostEvent} (h : s.host = rest) :
    { s with host := rest } = s := by
  subst h
  rfl

/-- As many steps as the host has offers are the fold of one offer over them. -/
theorem run_offers (cmds : List Command) {s : State} (hh : s.host = cmds.map .offer) :
    Sys2Proof.core.run cmds.length s = .next (cmds.foldl afterOffer { s with host := [] }) := by
  induction cmds generalizing s with
  | nil => exact congrArg Host.Outcome.next (withHost_eq_self hh).symm
  | cons cmd cmds ih =>
    refine (core_run_succ (step_eq_afterOffer hh) cmds.length).trans ((ih rfl).trans ?_)
    have hidle := afterOffer_host { s with host := [] } cmd
    exact congrArg (fun t => Host.Outcome.next (cmds.foldl afterOffer t)) (withHost_eq_self hidle)

/-- Settles O54: the run by induction over the list; a faulted state is a fixed point of the fold. -/
theorem runFoldsTheCommandList : Obligations.RunFoldsTheCommandList := by
  intro cmds s hh
  refine ⟨run_offers cmds hh, fun pre post hsplit hf => ?_⟩
  rw [hsplit, List.foldl_append, foldl_afterOffer_of_faulted hf]

end Sys2Proof.Machine

/-! ## PACK and UNPACK together: round trips, locality, the byte-wise forms (R43, R57, R85, R87) -/

namespace Sys2Proof.Machine

/-! ### Bits of a field, from either side -/

/-- A bit of BUF seen through two windows: positions shift by 8 for each byte between the windows' last
bytes (R43). -/
theorem windowBit_of_shift (m : Memory) {base wbytes k base' wbytes' k' : Nat}
    (hk : k < 8 * wbytes) (hk' : k' < 8 * wbytes')
    (hshift : k' + 8 * (base + wbytes) = k + 8 * (base' + wbytes')) :
    windowBit m base' wbytes' k' = windowBit m base wbytes k := by
  have haddr : bitAddress base' wbytes' k' = bitAddress base wbytes k := by
    simp only [bitAddress]
    omega
  rw [windowBit, windowBit, haddr, show k' % 8 = k % 8 by omega]

/-- UNPACK depends on the bits of its field and on no other bit of BUF. -/
theorem unpackValue_congr {m m' : Memory} {cfg : Config} {base wbytes high low : Nat}
    (h : FieldInWindow cfg base wbytes high low)
    (hbits : ∀ k, low ≤ k → k ≤ high → windowBit m' base wbytes k = windowBit m base wbytes k) :
    unpackValue m' base wbytes high low = unpackValue m base wbytes high low := by
  have hw := high_lt_of_fieldInWindow h
  obtain ⟨-, -, hlow, -, hn⟩ := h
  refine BitVec.eq_of_getLsbD_eq fun j _ => ?_
  rw [unpackValue_getLsbD _ hw hlow hn, unpackValue_getLsbD _ hw hlow hn]
  by_cases hj : j < high - low + 1
  · rw [hbits (low + j) (by omega) (by omega)]
  · simp [hj]

/-- What UNPACK returns fits the field. -/
theorem unpackValue_toNat_lt (m : Memory) (base wbytes high low : Nat) :
    (unpackValue m base wbytes high low).toNat < 2 ^ (high - low + 1) := by
  rw [unpackValue, BitVec.toNat_ofNat]
  exact (Nat.mod_le _ _).trans_lt (Nat.mod_lt _ (Nat.two_pow_pos _))

/-- UNPACK's result passes PACK's check of V in either overflow mode. -/
theorem fitsField_unpackValue (cfg : Config) (m : Memory) (base wbytes high low : Nat) :
    FitsField cfg (unpackValue m base wbytes high low) high low :=
  .inr (.inr (unpackValue_toNat_lt m base wbytes high low))

/-- A field packed through one window and unpacked through another that names the same bits is the
value, cut to the field. -/
theorem unpackValue_packBuf {m : Memory} (hm : m.wf) {cfg : Config}
    {base wbytes high low base' wbytes' high' low' : Nat} (v : Word64)
    (h : FieldInWindow cfg base wbytes high low) (h' : FieldInWindow cfg base' wbytes' high' low')
    (hhigh : high' + 8 * (base + wbytes) = high + 8 * (base' + wbytes'))
    (hlow : low' + 8 * (base + wbytes) = low + 8 * (base' + wbytes')) :
    (unpackValue (packBuf m base wbytes high low v) base' wbytes' high' low').toNat =
      v.toNat % 2 ^ (high - low + 1) := by
  have hw := high_lt_of_fieldInWindow h
  have hw' := high_lt_of_fieldInWindow h'
  obtain ⟨-, -, hle, -, -⟩ := h
  obtain ⟨-, -, hle', -, hn'⟩ := h'
  refine Nat.eq_of_testBit_eq fun j => ?_
  rw [Nat.testBit_mod_two_pow, ← BitVec.getLsbD, unpackValue_getLsbD _ hw' hle' hn',
    show high' - low' + 1 = high - low + 1 by omega]
  by_cases hj : j < high - low + 1
  · have hbit : windowBit (packBuf m base wbytes high low v) base wbytes (low + j) = v.getLsbD j := by
      rw [packBuf_windowBit hm v hle hw (by omega), if_pos (by omega), Nat.add_sub_cancel_left]
    rw [windowBit_of_shift _ (base := base) (wbytes := wbytes) (k := low + j) (by omega) (by omega)
      (by omega), hbit, BitVec.getLsbD]
  · simp [hj]

/-- PACK of what is there changes nothing. -/
theorem packBuf_unpackValue {m : Memory} (hm : m.wf) {cfg : Config} {base wbytes high low : Nat}
    (h : FieldInWindow cfg base wbytes high low) :
    packBuf m base wbytes high low (unpackValue m base wbytes high low) = m := by
  have hw := high_lt_of_fieldInWindow h
  obtain ⟨-, -, hlow, -, hn⟩ := h
  refine Memory.ext (packBuf_wf hm _ _ _ _ _) hm fun a => BitVec.eq_of_getLsbD_eq fun i hi => ?_
  rw [packBuf_read hm _ hlow hw a i hi]
  split
  next hin =>
    obtain ⟨hbase, hend, hklow, hkhigh⟩ := hin
    rw [unpackValue_getLsbD _ hw hlow hn, Nat.add_sub_cancel' hklow,
      read_getLsbD_eq_windowBit hbase hend hi, decide_eq_true (by omega), Bool.true_and]
  next => rfl

/-- The bit of BUF at a field's bit `k` is V's after PACK, whatever it was before. -/
theorem packBuf_read_bitAddress {m : Memory} (hm : m.wf) {base wbytes high low : Nat} (v : Word64)
    (h : low ≤ high) (hw : high < 8 * wbytes) {k : Nat} (hk : low ≤ k ∧ k ≤ high) :
    ((packBuf m base wbytes high low v).read (bitAddress base wbytes k)).getLsbD (k % 8) =
      v.getLsbD (k - low) := by
  have hbit := packBuf_windowBit hm (base := base) v h hw (k := k) (by omega)
  rwa [if_pos hk] at hbit

/-- PACK carries over a bit on which two buffers agree. -/
theorem packBuf_read_congr {m m' : Memory} (hm : m.wf) (hm' : m'.wf) {base wbytes high low : Nat}
    (v : Word64) (h : low ≤ high) (hw : high < 8 * wbytes) {a i : Nat} (hi : i < 8)
    (hbit : (m'.read a).getLsbD i = (m.read a).getLsbD i) :
    ((packBuf m' base wbytes high low v).read a).getLsbD i =
      ((packBuf m base wbytes high low v).read a).getLsbD i := by
  rw [packBuf_read hm v h hw a i hi, packBuf_read hm' v h hw a i hi, hbit]

/-- PACKs of disjoint fields commute: each bit of BUF is in one of the fields at most. -/
theorem packBuf_comm {m : Memory} (hm : m.wf) {base wbytes high low base' wbytes' high' low' : Nat}
    (v v' : Word64) (h : low ≤ high) (hw : high < 8 * wbytes)
    (h' : low' ≤ high') (hw' : high' < 8 * wbytes')
    (hdisj : FieldsDisjoint base wbytes high low base' wbytes' high' low') :
    packBuf (packBuf m base wbytes high low v) base' wbytes' high' low' v' =
      packBuf (packBuf m base' wbytes' high' low' v') base wbytes high low v := by
  have hwf := packBuf_wf hm base wbytes high low v
  have hwf' := packBuf_wf hm base' wbytes' high' low' v'
  refine Memory.ext (packBuf_wf hwf _ _ _ _ _) (packBuf_wf hwf' _ _ _ _ _) fun a =>
    BitVec.eq_of_getLsbD_eq fun i hi => ?_
  by_cases hin : ∃ k, low ≤ k ∧ k ≤ high ∧ a = bitAddress base wbytes k ∧ i = k % 8
  · obtain ⟨k, hklow, hkhigh, rfl, rfl⟩ := hin
    rw [packBuf_read_bitAddress hwf' v h hw ⟨hklow, hkhigh⟩,
      packBuf_read_getLsbD_of_not_field hwf v' h' hw' hi fun k' => hdisj k k' hklow hkhigh,
      packBuf_read_bitAddress hm v h hw ⟨hklow, hkhigh⟩]
  · have hout : ∀ k, low ≤ k → k ≤ high → ¬ (a = bitAddress base wbytes k ∧ i = k % 8) :=
      fun k hklow hkhigh hk => hin ⟨k, hklow, hkhigh, hk⟩
    rw [packBuf_read_getLsbD_of_not_field hwf' v h hw hi hout]
    exact packBuf_read_congr hm hwf v' h' hw' hi
      (packBuf_read_getLsbD_of_not_field hm v h hw hi hout)

/-- PACK of a legal field that V fits completes. -/
theorem exec_pack {s : State} {base wbytes high low : Nat}
    (h : FieldInWindow s.cfg base wbytes high low) (hf : FitsField s.cfg s.v high low) :
    exec (.pack base wbytes high low) s =
      .next { s with buf := packBuf s.buf base wbytes high low s.v } :=
  exec_of_none (packFault_none_of h hf)

/-- UNPACK of a legal field completes. -/
theorem exec_unpack {s : State} {base wbytes high low : Nat}
    (h : FieldInWindow s.cfg base wbytes high low) :
    exec (.unpack base wbytes high low) s =
      .next { s with v := unpackValue s.buf base wbytes high low } :=
  exec_of_none (fieldFault_none.mpr h)

/-- Settles O23: the two windows show the same bits of BUF. -/
theorem packOneWindowUnpackAnother : Obligations.PackOneWindowUnpackAnother := by
  intro base wbytes high low base' wbytes' high' low' s hm h h' hf hhigh hlow
  exact ⟨_, _, exec_pack h hf, exec_unpack h', unpackValue_packBuf hm s.v h h' hhigh hlow⟩

/-- Settles O19: the two windows are one. -/
theorem packThenUnpackReturnsValue : Obligations.PackThenUnpackReturnsValue := by
  intro base wbytes high low s hm h hf
  have hvalue := unpackValue_packBuf hm s.v h h rfl rfl
  refine ⟨_, _, exec_pack h hf, exec_unpack h, hvalue, fun hlt => ?_, rfl⟩
  exact BitVec.eq_of_toNat_eq (hvalue.trans (Nat.mod_eq_of_lt hlt))

/-- Settles O20: what UNPACK returns fits the field, and is what is there. -/
theorem unpackThenPackRestoresBuf : Obligations.UnpackThenPackRestoresBuf := by
  intro base wbytes high low s hm h
  exact ⟨_, _, exec_unpack h, exec_pack h (fitsField_unpackValue _ _ _ _ _ _),
    packBuf_unpackValue hm h⟩

/-- Settles O21: no bit of the second field is one that PACK of the first writes. -/
theorem packIsLocal : Obligations.PackIsLocal := by
  intro base wbytes high low base' wbytes' high' low' s hm h h' hf hdisj
  refine ⟨_, _, _, exec_pack h hf, exec_unpack h', exec_unpack h', ?_⟩
  obtain ⟨-, -, hlow, -, -⟩ := id h
  refine unpackValue_congr h' fun k' hklow hkhigh => ?_
  exact packBuf_read_getLsbD_of_not_field hm s.v hlow (high_lt_of_fieldInWindow h)
    (Nat.mod_lt _ (by decide)) fun k hk hk' hsame =>
      hdisj k k' hk hk' hklow hkhigh ⟨hsame.1.symm, hsame.2.symm⟩

/-- Settles O22: both orders complete in the two PACKs' effects, and those commute. -/
theorem disjointPacksCommute : Obligations.DisjointPacksCommute := by
  intro base wbytes high low base' wbytes' high' low' v v' s hm h h' hf hf' hdisj
  refine ⟨_, _, _, _, exec_pack (s := { s with v := v }) h hf,
    exec_pack (s := { s with v := v', buf := packBuf s.buf base wbytes high low v }) h' hf',
    exec_pack (s := { s with v := v' }) h' hf',
    exec_pack (s := { s with v := v, buf := packBuf s.buf base' wbytes' high' low' v' }) h hf, ?_⟩
  have hw := high_lt_of_fieldInWindow h
  have hw' := high_lt_of_fieldInWindow h'
  obtain ⟨-, -, hlow, -, -⟩ := h
  obtain ⟨-, -, hlow', -, -⟩ := h'
  exact packBuf_comm hm v v' hlow hw hlow' hw' hdisj

/-! ### The byte-wise forms (R87) -/

/-- The byte-wise PACK inserts, in one byte as a window of its own, the part of V that belongs there. -/
theorem packByte_eq_insertField (old : Nat) (v : Word64) (last high low a : Nat) :
    Claims.packByte old v.toNat last high low a =
      insertField old 1 (Claims.byteTop last high a) (Claims.byteBottom last low a)
        (v >>> Claims.byteShift last low a) := by
  have hwidth (shift top bottom : Nat) : shift + top - bottom - shift + 1 = top - bottom + 1 := by
    omega
  rw [Claims.packByte, insertField, BitVec.toNat_ushiftRight, Nat.shiftRight_eq_div_pow, bits, hwidth]
  rfl

/-- In a byte that holds a field bit, the byte's part of the field is a field of the byte. -/
theorem byteBottom_le_byteTop {last high low a : Nat} (h : low ≤ high) (hhigh : last - a ≤ high / 8)
    (hlow : low / 8 ≤ last - a) :
    Claims.byteBottom last low a ≤ Claims.byteTop last high a ∧ Claims.byteTop last high a < 8 := by
  simp only [Claims.byteBottom, Claims.byteTop]
  omega

/-- Bit `i` of the byte at `a` is in the byte's part of the field if bit `8 * (last - a) + i` of the window
is in the field. -/
theorem byte_part_iff {last high low a i : Nat} (hhigh : last - a ≤ high / 8) :
    (Claims.byteBottom last low a ≤ i ∧ i ≤ Claims.byteTop last high a) ↔
      i < 8 ∧ low ≤ 8 * (last - a) + i ∧ 8 * (last - a) + i ≤ high := by
  simp only [Claims.byteBottom, Claims.byteTop]
  omega

/-- The place in V of the first bit of the byte's part of the field. -/
theorem byteShift_add (last low a : Nat) :
    Claims.byteShift last low a + low = 8 * (last - a) + Claims.byteBottom last low a := by
  simp only [Claims.byteShift, Claims.byteBottom]
  omega

/-- The bits of the byte-wise PACK in a byte that holds a field bit: V's inside the field, the old byte's
outside. -/
theorem packByte_testBit {old : Nat} (v : Word64) {last high low a : Nat} (hold : old < 2 ^ 8)
    (h : low ≤ high) (hhigh : last - a ≤ high / 8) (hlow : low / 8 ≤ last - a) (i : Nat) :
    (Claims.packByte old v.toNat last high low a).testBit i =
      if i < 8 ∧ low ≤ 8 * (last - a) + i ∧ 8 * (last - a) + i ≤ high then
        v.getLsbD (8 * (last - a) + i - low)
      else old.testBit i := by
  obtain ⟨hle, htop⟩ := byteBottom_le_byteTop h hhigh hlow
  have hshift := byteShift_add last low a
  rw [packByte_eq_insertField, insertField_testBit _ hold hle htop, BitVec.getLsbD_ushiftRight]
  simp only [← byte_part_iff hhigh]
  refine ite_congr rfl (fun hin => congrArg _ ?_) fun _ => rfl
  omega

/-- The byte-wise PACK of a byte is a byte. -/
theorem packByte_lt {old : Nat} (v : Word64) {last high low a : Nat} (hold : old < 2 ^ 8)
    (h : low ≤ high) (hhigh : last - a ≤ high / 8) (hlow : low / 8 ≤ last - a) :
    Claims.packByte old v.toNat last high low a < 2 ^ 8 := by
  refine Nat.lt_pow_two_of_testBit _ fun i hi => ?_
  rw [packByte_testBit v hold h hhigh hlow, if_neg (by omega)]
  exact Nat.testBit_eq_false_of_lt (hold.trans_le (Nat.pow_le_pow_right (by decide) hi))

/-- Settles O24: in a byte that holds a field bit both forms have the same eight bits, and PACK leaves
every other byte. -/
theorem packBytewiseForm : Obligations.PackBytewiseForm := by
  intro base wbytes high low s hm h hf
  refine ⟨_, exec_pack h hf, fun a => ?_⟩
  have hw := high_lt_of_fieldInWindow h
  obtain ⟨-, -, hlow, -, -⟩ := h
  split
  next ha =>
    have hold := (s.buf.read a).isLt
    have hahigh : base + wbytes - 1 - a ≤ high / 8 := by omega
    have halow : low / 8 ≤ base + wbytes - 1 - a := by omega
    rw [← Nat.mod_eq_of_lt (packByte_lt s.v hold hlow hahigh halow), ← BitVec.toNat_ofNat]
    refine congrArg _ (BitVec.eq_of_getLsbD_eq fun i hi => ?_)
    rw [packBuf_read hm s.v hlow hw a i hi, BitVec.getLsbD_ofNat,
      packByte_testBit s.v hold hlow hahigh halow, decide_eq_true hi, Bool.true_and]
    refine if_congr ?_ rfl rfl
    omega
  next ha => rw [packBuf_read_other hm s.v hlow hw (by simp only [bitAddress]; omega)]

/-- The bits one turn of the byte-wise UNPACK adds: those of the field that live in the byte at `a`, each
at its place in V. -/
theorem unpackByte_testBit (b : Byte) {last high low a : Nat} (h : low ≤ high)
    (hhigh : last - a ≤ high / 8) (hlow : low / 8 ≤ last - a) (j : Nat) :
    (((b.toNat &&& Claims.byteMask last high low a) >>> Claims.byteBottom last low a) <<<
        Claims.byteShift last low a).testBit j =
      (decide (low + j ≤ high ∧ (low + j) / 8 = last - a) && b.getLsbD ((low + j) % 8)) := by
  obtain ⟨hle, -⟩ := byteBottom_le_byteTop h hhigh hlow
  have hmask : Claims.byteMask last high low a =
      fieldMask (Claims.byteTop last high a) (Claims.byteBottom last low a) := rfl
  have hshift := byteShift_add last low a
  rw [Nat.testBit_shiftLeft, Nat.testBit_shiftRight, Nat.testBit_and, hmask,
    fieldMask_testBit _ _ _ hle]
  simp only [byte_part_iff hhigh]
  by_cases hj : Claims.byteShift last low a ≤ j
  · have hbit : Claims.byteBottom last low a + (j - Claims.byteShift last low a) + 8 * (last - a) =
        low + j := by omega
    by_cases hin : low + j ≤ high ∧ (low + j) / 8 = last - a
    · rw [show Claims.byteBottom last low a + (j - Claims.byteShift last low a) = (low + j) % 8 by
        omega, decide_eq_true hj, decide_eq_true hin, decide_eq_true (by omega), Bool.and_true]
      rfl
    · rw [decide_eq_true hj, decide_eq_false hin, decide_eq_false (by omega), Bool.and_false,
        Bool.and_false, Bool.false_and]
  · have hout : ¬ (low + j ≤ high ∧ (low + j) / 8 = last - a) := by
      rw [Claims.byteBottom] at hshift
      omega
    simp [hj, hout]

/-- The byte-wise accumulator after the bytes from `a` on: what it held, and the field's bits that live
there. -/
theorem unpackBytes_testBit (m : Memory) {last high low : Nat} (h : low ≤ high)
    (hlast : high / 8 ≤ last) (j n : Nat) {acc a : Nat} (ha : last ≤ a + high / 8)
    (hn : a + n ≤ last - low / 8 + 1) :
    (Claims.unpackBytes m last high low acc a n).testBit j = (acc.testBit j ||
      (decide (low + j ≤ high ∧ a ≤ last - (low + j) / 8 ∧ last - (low + j) / 8 < a + n) &&
        (m.read (last - (low + j) / 8)).getLsbD ((low + j) % 8))) := by
  induction n generalizing acc a with
  | zero =>
    rw [Claims.unpackBytes, decide_eq_false (by omega), Bool.false_and, Bool.or_false]
  | succ n ih =>
    rw [Claims.unpackBytes, ih (by omega) (by omega), Nat.testBit_or,
      unpackByte_testBit _ h (by omega) (by omega), Bool.or_assoc]
    congr 1
    by_cases hhere : low + j ≤ high ∧ (low + j) / 8 = last - a
    · rw [show last - (low + j) / 8 = a by omega, decide_eq_true hhere, decide_eq_false (by omega),
        decide_eq_true (by omega), Bool.false_and, Bool.or_false]
    · rw [decide_eq_false hhere, Bool.false_and, Bool.false_or]
      congr 2
      refine propext ?_
      omega

/-- Settles O25: over all bytes of the field the accumulator has gathered every bit of it. -/
theorem unpackBytewiseForm : Obligations.UnpackBytewiseForm := by
  intro base wbytes high low s h
  refine ⟨_, exec_unpack h, Nat.eq_of_testBit_eq fun j => ?_⟩
  have hw := high_lt_of_fieldInWindow h
  obtain ⟨-, -, hlow, -, hn⟩ := h
  rw [unpackBytes_testBit _ hlow (by omega) _ _ (by omega) (by omega), Nat.zero_testBit,
    Bool.false_or, ← BitVec.getLsbD, unpackValue_getLsbD _ hw hlow hn]
  refine congrArg (· && _) (decide_eq_decide.mpr ?_)
  omega

end Sys2Proof.Machine

/-! ## Commands issued twice, commands that agree, and the bytes a command touches (R46, R48, R76, R115) -/

namespace Sys2Proof.Machine

open Claims

/-! ### The same command again -/

/-- The operand checks of a command give the same answer after its effect: only PACK looks at V, and PACK
leaves V. -/
theorem instrFault_effect (i : Instr) (s : State) :
    instrFault (effect i s).cfg (effect i s).v i = instrFault s.cfg s.v i := by
  cases i <;> rfl

/-- PACK of one value twice is PACK of it once. -/
theorem packBuf_packBuf {m : Memory} (hm : m.wf) {base wbytes high low : Nat} (v : Word64)
    (h : low ≤ high) (hw : high < 8 * wbytes) :
    packBuf (packBuf m base wbytes high low v) base wbytes high low v =
      packBuf m base wbytes high low v := by
  have hwf := packBuf_wf hm base wbytes high low v
  refine Memory.ext (packBuf_wf hwf _ _ _ _ _) hwf fun a => BitVec.eq_of_getLsbD_eq fun i hi => ?_
  rw [packBuf_read hwf v h hw a i hi, packBuf_read hm v h hw a i hi]
  split <;> rfl

theorem zeroBytes_zeroBytes {m : Memory} (hm : m.wf) (a n : Nat) :
    zeroBytes (zeroBytes m a n) a n = zeroBytes m a n := by
  have hwf := zeroBytes_wf hm a n
  refine Memory.ext (zeroBytes_wf hwf _ _) hwf fun x => ?_
  rw [read_zeroBytes hwf, read_zeroBytes hm]
  split <;> rfl

theorem Memory.write_write {m : Memory} (hm : m.wf) (a : Nat) (b : Byte) :
    (m.write a b).write a b = m.write a b := by
  have hwf := Memory.write_wf hm a b
  refine Memory.ext (Memory.write_wf hwf _ _) hwf fun x => ?_
  rw [Memory.read_write hwf, Memory.read_write hm]
  split <;> rfl

/-- The six commands that read or write BUF (R48). -/
abbrev AccessesBuf (i : Instr) : Prop :=
  (∃ b w h l, i = .pack b w h l) ∨ (∃ b w h l, i = .unpack b w h l) ∨ (∃ b n, i = .zero b n) ∨
    (∃ b n, i = .crc b n) ∨ (∃ a x, i = .stb a x) ∨ ∃ a, i = .ldb a

/-- The effect of a command that reads or writes BUF, had twice, is its effect. -/
theorem effect_effect {i : Instr} {s : State} (hm : s.buf.wf) (hbuf : AccessesBuf i)
    (hi : instrFault s.cfg s.v i = none) : effect i (effect i s) = effect i s := by
  rcases hbuf with ⟨base, wbytes, high, low, rfl⟩ | ⟨_, _, _, _, rfl⟩ | ⟨base, len, rfl⟩ |
    ⟨_, _, rfl⟩ | ⟨addr, imm8, rfl⟩ | ⟨_, rfl⟩
  · have hfield := fieldFault_none.mp (packFault_none.mp hi).1
    have hw := high_lt_of_fieldInWindow hfield
    obtain ⟨-, -, hlow, -, -⟩ := hfield
    simp only [effect, packBuf_packBuf hm _ hlow hw]
  · rfl
  · simp only [effect, zeroBytes_zeroBytes hm]
  · rfl
  · simp only [effect, Memory.write_write hm]
  · rfl

/-- Settles O51: the same checks pass or fail again; a fault taken again writes the same record, and a
completed command's effect is had again. -/
theorem repeatedCommandChangesNothing : Obligations.RepeatedCommandChangesNothing := by
  intro i s t hm hbuf hx
  cases hi : instrFault s.cfg s.v i with
  | some k =>
    obtain rfl := Host.Outcome.next.inj ((exec_of_some hi).symm.trans hx)
    exact exec_of_some (s := raise k (encode i) s) hi
  | none =>
    obtain rfl := Host.Outcome.next.inj ((exec_of_none hi).symm.trans hx)
    rw [exec_of_none ((instrFault_effect i s).trans hi), effect_effect hm hbuf hi]

/-! ### Pseudo-instructions, and the checksum stored -/

/-- The two halves of a value, joined, are the value (R10). -/
theorem joinHalves_halves (v : Word64) : joinHalves (highHalf v) (lowHalf v) = v := by
  refine BitVec.eq_of_getLsbD_eq fun k _ => ?_
  by_cases hk : k < 32
  · exact joinHalves_lowHalf_getLsbD v _ hk
  · exact joinHalves_highHalf_getLsbD v _ (Nat.le_of_not_lt hk)

theorem highHalf_joinHalves (hi lo : Word32) : highHalf (joinHalves hi lo) = hi := by
  refine BitVec.eq_of_getLsbD_eq fun k _ => ?_
  rw [highHalf_getLsbD, joinHalves_getLsbD_of_le _ _ (Nat.le_add_right _ _), Nat.add_sub_cancel_left]

theorem lowHalf_joinHalves (hi lo : Word32) : lowHalf (joinHalves hi lo) = lo := by
  refine BitVec.eq_of_getLsbD_eq fun k hk => ?_
  rw [lowHalf_getLsbD, joinHalves_getLsbD_of_lt _ _ hk, decide_eq_true hk, Bool.true_and]

/-- PACK of a one-byte window is the write of V's low byte (R76). -/
theorem packBuf_byte {m : Memory} (hm : m.wf) (base : Nat) (v : Word64) :
    packBuf m base 1 7 0 v = m.write base (v.extractLsb' 0 8) := by
  refine Memory.ext (packBuf_wf hm _ _ _ _ _) (Memory.write_wf hm _ _) fun a => ?_
  rw [Memory.read_write hm]
  split
  next ha =>
    subst ha
    refine BitVec.eq_of_getLsbD_eq fun i hi => ?_
    rw [packBuf_read hm v (by decide) (by decide) base i hi, if_pos (by omega)]
    simp [hi]
  next ha => exact packBuf_read_outside hm v (by omega)

/-- Settles O53: each of SETVH and SETVL leaves the half the other writes; PACK of a one-byte window has
the check of STB, which V below 256 adds nothing to, and the same effect. -/
theorem pseudoInstructionEquivalences : Obligations.PseudoInstructionEquivalences := by
  refine ⟨fun imm64 s => ?setv, fun base s hm hb hv => ?packb⟩
  case setv =>
    refine ⟨_, _, _, _, rfl, rfl, ?_, rfl, rfl, ?_⟩
    · exact (congrArg (joinHalves · _) (highHalf_joinHalves _ _)).trans (joinHalves_halves imm64)
    · simp only [highHalf_joinHalves, lowHalf_joinHalves]
  case packb =>
    have hfield : FieldInWindow s.cfg base 1 7 0 :=
      ⟨le_rfl, hb, by decide, by decide, by decide⟩
    rw [exec_pack hfield (.inr (.inr hv)), packBuf_byte hm]
    exact (exec_of_none (i := .stb base _) (byteFault_none.mpr hb)).symm

/-- Settles O35: MVCV puts C in V's low half, and the window's byte `j` takes in V's bits from
`8 * (3 - j)` on. -/
theorem storedChecksumIsBigEndian : Obligations.StoredChecksumIsBigEndian := by
  intro base s hm hb
  have hfield : FieldInWindow s.cfg base 4 31 0 :=
    ⟨by decide, hb, by decide, by decide, by decide⟩
  have hfits : (s.c.setWidth 64).toNat < 2 ^ 32 := by
    rw [BitVec.toNat_setWidth_of_le (by decide)]
    exact s.c.isLt
  have hbyte (j : Nat) (hj : j < 4) :
      (packBuf s.buf base 4 31 0 (s.c.setWidth 64)).read (base + j) =
        s.c.extractLsb' (8 * (3 - j)) 8 := by
    refine BitVec.eq_of_getLsbD_eq fun i hi => ?_
    rw [packBuf_read hm _ (by decide) (by decide) _ i hi, if_pos (by omega),
      show 8 * (base + 4 - 1 - (base + j)) + i - 0 = 8 * (3 - j) + i by omega,
      BitVec.getLsbD_setWidth, BitVec.getLsbD_extractLsb', decide_eq_true hi, decide_eq_true (by omega)]
  refine ⟨_, _, exec_of_none (i := .mvcv) rfl,
    exec_pack (s := effect .mvcv s) hfield (.inr (.inr hfits)), hbyte 0 (by decide),
    hbyte 1 (by decide), hbyte 2 (by decide), hbyte 3 (by decide), fun a ha => ?_⟩
  exact packBuf_read_outside hm _ (by omega)

/-! ### The bytes of a command's row (R46) -/

/-- A completed command leaves the bytes outside its row. -/
theorem effect_read_of_not_writesByte {i : Instr} {s : State} (hm : s.buf.wf)
    (hi : instrFault s.cfg s.v i = none) {a : Nat} (ha : ¬ WritesByte i a) :
    (effect i s).buf.read a = s.buf.read a := by
  cases i with
  | pack base wbytes high low =>
    have hfield := fieldFault_none.mp (packFault_none.mp hi).1
    have hw := high_lt_of_fieldInWindow hfield
    obtain ⟨-, -, hlow, -, -⟩ := hfield
    rw [WritesByte, Classical.not_and_iff_not_or_not, Nat.not_le, Nat.not_le] at ha
    exact packBuf_read_other hm s.v hlow hw ha
  | zero base len => exact (read_zeroBytes hm base len a).trans (if_neg ha)
  | stb addr imm8 => exact (Memory.read_write hm addr imm8 a).trans (if_neg (Ne.symm ha))
  | _ => rfl

/-- CRC consumes the bytes of its range under either feed. -/
theorem crcFeedBytes_congr {m m' : Memory} {base len : Nat} (feed : CrcFeed)
    (h : ∀ a, base ≤ a ∧ a < base + len → m'.read a = m.read a) :
    crcFeedBytes feed m' base len = crcFeedBytes feed m base len := by
  cases feed with
  | ascending =>
    rw [crcFeedBytes_ascending, crcFeedBytes_ascending]
    refine List.map_congr_left fun i hi => h _ ?_
    rw [List.mem_range] at hi
    omega
  | word32Reversed =>
    rw [crcFeedBytes, crcFeedBytes, reversedGroups_eq_map, reversedGroups_eq_map]
    refine List.map_congr_left fun i hi => h _ ?_
    rw [List.mem_range] at hi
    omega

/-- A completed command's registers depend on the bytes of its row and on no other. -/
theorem effect_registers_congr {i : Instr} {s : State} {other : Memory}
    (hi : instrFault s.cfg s.v i = none)
    (hread : ∀ a, ReadsByte i a → other.read a = s.buf.read a) :
    (effect i { s with buf := other }).v = (effect i s).v ∧
      (effect i { s with buf := other }).c = (effect i s).c := by
  cases i with
  | unpack base wbytes high low =>
    refine ⟨unpackValue_congr (fieldFault_none.mp hi) fun k hklow hkhigh => ?_, rfl⟩
    rw [windowBit, windowBit, hread]
    simp only [ReadsByte, bitAddress]
    omega
  | crc base len => exact ⟨rfl, congrArg crc32 (crcFeedBytes_congr _ hread)⟩
  | ldb addr => exact ⟨congrArg (BitVec.setWidth 64) (hread addr rfl), rfl⟩
  | _ => exact ⟨rfl, rfl⟩

/-- The bytes a completed command writes depend on the bytes of its row and on no other. -/
theorem effect_written_congr {i : Instr} {s : State} {other : Memory} (hm : s.buf.wf)
    (hm' : other.wf) (hi : instrFault s.cfg s.v i = none)
    (hread : ∀ a, ReadsByte i a → other.read a = s.buf.read a) {a : Nat} (ha : WritesByte i a) :
    (effect i { s with buf := other }).buf.read a = (effect i s).buf.read a := by
  cases i with
  | pack base wbytes high low =>
    have hfield := fieldFault_none.mp (packFault_none.mp hi).1
    have hw := high_lt_of_fieldInWindow hfield
    obtain ⟨-, -, hlow, -, -⟩ := hfield
    refine BitVec.eq_of_getLsbD_eq fun j hj => ?_
    exact packBuf_read_congr hm hm' s.v hlow hw hj (congrArg (BitVec.getLsbD · j) (hread a ha))
  | zero base len =>
    exact ((read_zeroBytes hm' base len a).trans (if_pos ha)).trans
      ((read_zeroBytes hm base len a).trans (if_pos ha)).symm
  | stb addr imm8 =>
    exact ((Memory.read_write hm' addr imm8 a).trans (if_pos ha.symm)).trans
      ((Memory.read_write hm addr imm8 a).trans (if_pos ha.symm)).symm
  | _ => exact ha.elim

/-- Settles O50: the checks of a command do not look at BUF, so it faults on both buffers, and the fault
touches no byte, or completes on both. -/
theorem bytesEachCommandTouches : Obligations.BytesEachCommandTouches := by
  refine ⟨fun i s t hm hx a ha => ?writes, fun i s other t t' hm hm' hread hx hx' => ?reads⟩
  case writes =>
    cases hi : instrFault s.cfg s.v i with
    | some k =>
      obtain rfl := Host.Outcome.next.inj ((exec_of_some hi).symm.trans hx)
      rfl
    | none =>
      obtain rfl := Host.Outcome.next.inj ((exec_of_none hi).symm.trans hx)
      exact effect_read_of_not_writesByte hm hi ha
  case reads =>
    cases hi : instrFault s.cfg s.v i with
    | some k =>
      obtain rfl := Host.Outcome.next.inj ((exec_of_some hi).symm.trans hx)
      obtain rfl := Host.Outcome.next.inj
        ((exec_of_some (s := { s with buf := other }) hi).symm.trans hx')
      exact ⟨rfl, rfl, rfl, rfl, fun hf => absurd hf (by simp)⟩
    | none =>
      obtain rfl := Host.Outcome.next.inj ((exec_of_none hi).symm.trans hx)
      obtain rfl := Host.Outcome.next.inj
        ((exec_of_none (s := { s with buf := other }) hi).symm.trans hx')
      obtain ⟨hv, hc⟩ := effect_registers_congr hi hread
      exact ⟨hv, hc, by simp, by simp, fun _ a ha => effect_written_congr hm hm' hi hread ha⟩

end Sys2Proof.Machine

/-! ## The checksum: the reversed feed, the loop on numbers, the table form, what it detects (R101 to R108) -/

namespace Sys2Proof.Machine

open Claims

/-! ### CRC of a range -/

/-- A whole number of groups inside BUF passes CRC's checks under either feed (R106). -/
theorem crcFault_of_groups {cfg : Config} {base len : Nat} (h : base + len ≤ cfg.bufBytes)
    (hlen : len % 4 = 0) : crcFault cfg base len = none := crcFault_none.mpr ⟨h, fun _ => hlen⟩

/-- Under the reversed feed a length that is no whole number of groups fails CRC's last check (R106). -/
theorem crcFault_of_partial_group {cfg : Config} {base len : Nat}
    (hfeed : cfg.crcFeed = .word32Reversed) (h : base + len ≤ cfg.bufBytes) (hlen : len % 4 ≠ 0) :
    crcFault cfg base len = some .crcLength := by
  rw [crcFault_eq_or, rangeFault_none.mpr h, if_pos ⟨hfeed, hlen⟩, Option.none_or]

/-- The reversed feed of a whole number of groups as a map over the offsets (R106). -/
theorem crcFeedBytes_word32Reversed (m : Memory) (base : Nat) {len : Nat} (hlen : len % 4 = 0) :
    crcFeedBytes .word32Reversed m base len =
      (List.range len).map fun i => m.read (base + 4 * (i / 4) + (3 - i % 4)) := by
  rw [crcFeedBytes, reversedGroups_eq_map, Nat.mul_div_cancel' (Nat.dvd_of_mod_eq_zero hlen)]

/-- If every group of four is a palindrome, reversing each changes nothing. -/
theorem map_reversed_of_palindromes (read : Nat → Byte) (base : Nat) {len : Nat} (hlen : len % 4 = 0)
    (hpal : ∀ g, g < len / 4 → read (base + 4 * g) = read (base + 4 * g + 3) ∧
      read (base + 4 * g + 1) = read (base + 4 * g + 2)) :
    ((List.range len).map fun i => read (base + 4 * (i / 4) + (3 - i % 4))) =
      (List.range len).map fun i => read (base + i) := by
  refine List.map_congr_left fun i hi => ?_
  rw [List.mem_range] at hi
  obtain ⟨houter, hinner⟩ := hpal (i / 4) (by omega)
  have hsplit : base + i = base + 4 * (i / 4) + i % 4 := by omega
  have hmod : i % 4 < 4 := Nat.mod_lt _ (by decide)
  rw [hsplit]
  generalize i % 4 = r at hmod ⊢
  interval_cases r
  · exact houter.symm
  · exact hinner.symm
  · exact hinner
  · exact houter

/-- Settles O27: CRC's checks pass and it takes in the groups reversed, or its last check fails. -/
theorem crcReversedGroups : Obligations.CrcReversedGroups := by
  refine fun base len s hfeed h => ⟨fun hlen => ?completes, fun hlen => ?partialGroup⟩
  case completes =>
    have hc : (effect (.crc base len) s).c =
        crc32 ((List.range len).map fun i => s.buf.read (base + 4 * (i / 4) + (3 - i % 4))) := by
      rw [← crcFeedBytes_word32Reversed _ _ hlen, ← hfeed, effect]
    refine ⟨_, exec_of_none (crcFault_of_groups h hlen), hc, fun _ => rfl, rfl, ⟨rfl, rfl⟩,
      ⟨rfl, rfl⟩, fun hpal => hc.trans ?_⟩
    rw [map_reversed_of_palindromes s.buf.read base hlen hpal]
  case partialGroup => exact takesFault_of_some (crcFault_of_partial_group hfeed h hlen)

/-- No byte is fed from an empty range, whatever the feed. -/
theorem crcFeedBytes_empty (feed : CrcFeed) (m : Memory) (base : Nat) :
    crcFeedBytes feed m base 0 = [] := by cases feed <;> rfl

theorem crc32_nil : crc32 [] = 0 := by decide

/-- Settles O28: an empty range passes the checks, and feeds no byte. -/
theorem crcEmptyRange : Obligations.CrcEmptyRange := by
  refine ⟨crc32_nil, fun base s h => ?_⟩
  rw [exec_of_none (i := .crc base 0) (crcFault_empty h), effect, crcFeedBytes_empty, crc32_nil]

/-! ### The register as a number, and the table form -/

/-- Settles O30: the values of R101 are the model's, by computation. -/
theorem crcParameters : Obligations.CrcParameters :=
  ⟨rfl, by decide +kernel, by decide +kernel, rfl, rfl, by decide +kernel⟩

/-- One turn of the inner loop is the turn on numbers. -/
theorem toNat_crcShift (r : Word32) : (crcShift r).toNat = natShift r.toNat := by
  have hbit : r.getLsbD 0 = decide (bits r.toNat 0 0 = 1) := by
    simp [bits, BitVec.getLsbD, Nat.testBit_zero]
  have hhalf : (r >>> 1).toNat = r.toNat / 2 := by
    rw [BitVec.toNat_ushiftRight, Nat.shiftRight_eq_div_pow, Nat.pow_one]
  rw [crcShift, natShift, hbit, ← hhalf]
  split
  next h => rw [if_pos (of_decide_eq_true h), BitVec.toNat_xor]; rfl
  next h => rw [if_neg (fun hb => h (decide_eq_true hb))]

theorem toNat_repeat_crcShift (n : Nat) (r : Word32) :
    (Nat.repeat crcShift n r).toNat = Nat.repeat natShift n r.toNat := by
  induction n with
  | zero => rfl
  | succ n ih => rw [Nat.repeat, Nat.repeat, toNat_crcShift, ih]

/-- The outer loop is the loop on numbers. -/
theorem toNat_foldl_crcByte (l : List Byte) (r : Word32) :
    (l.foldl crcByte r).toNat = natRegister r.toNat l := by
  induction l generalizing r with
  | nil => rfl
  | cons b l ih =>
    rw [List.foldl_cons, ih, natRegister, crcByte, crcShift8, toNat_repeat_crcShift, BitVec.toNat_xor,
      BitVec.toNat_setWidth_of_le (by decide)]

/-- Settles O29: the model's register and the loop's are one number, so the loop's has 32 bits. -/
theorem crcIsBitSerial : Obligations.CrcIsBitSerial := by
  refine ⟨fun l => ?loop, fun r hr => ?turn⟩
  case loop =>
    have hreg : natRegister 0xFFFFFFFF l = (crcRegister l).toNat := (toNat_foldl_crcByte l crcOnes).symm
    rw [hreg]
    exact ⟨BitVec.toNat_xor _ _, (crcRegister l).isLt⟩
  case turn =>
    rw [← Nat.mod_eq_of_lt hr, ← BitVec.toNat_ofNat, ← toNat_crcShift]
    exact (crcShift _).isLt

/-- Eight turns on a register: its upper bytes only shift, and its low byte is looked up (R103). -/
theorem crcShift8_eq_table (x : Word32) : crcShift8 x = (x >>> 8) ^^^ crcTable (x.toNat % 256) := by
  have hlow (k : Nat) : (BitVec.ofNat 32 (x.toNat % 256)).getLsbD k =
      (decide (k < 32) && (decide (k < 8) && x.getLsbD k)) := by
    rw [BitVec.getLsbD_ofNat, show (256 : Nat) = 2 ^ 8 from rfl, Nat.testBit_mod_two_pow,
      BitVec.getLsbD]
  have hupper : crcShift8 (x ^^^ BitVec.ofNat 32 (x.toNat % 256)) = x >>> 8 := by
    rw [crcShift8_of_low_zero fun k hk => by
      rw [BitVec.getLsbD_xor, hlow]; simp [hk, show k < 32 by omega]]
    refine BitVec.eq_of_getLsbD_eq fun i hi => ?_
    rw [BitVec.getLsbD_ushiftRight, BitVec.getLsbD_ushiftRight, BitVec.getLsbD_xor, hlow]
    simp
  calc crcShift8 x
      = crcShift8 (x ^^^ BitVec.ofNat 32 (x.toNat % 256) ^^^ BitVec.ofNat 32 (x.toNat % 256)) := by
        rw [BitVec.xor_assoc, BitVec.xor_self, BitVec.xor_zero]
    _ = (x >>> 8) ^^^ crcTable (x.toNat % 256) := by rw [crcShift8_xor, hupper]; rfl

/-- Settles O31: a byte takes up no bit above the eight the register loses. -/
theorem crcTableForm : Obligations.CrcTableForm := by
  refine ⟨fun r b => ?step, by decide, by decide, by decide, by decide, by decide, by decide,
    by decide, by decide⟩
  case step =>
    have hshift : (r ^^^ b.setWidth 32) >>> 8 = r >>> 8 := by
      refine BitVec.eq_of_getLsbD_eq fun i _ => ?_
      simp
    rw [crcByte, crcShift8_eq_table, hshift]

/-! ### What the checksum detects -/

/-- Settles O32: the register tells the two bytes apart, and no byte that follows undoes that. -/
theorem crcSingleBitSensitivity : Obligations.CrcSingleBitSensitivity := by
  intro pre post b k hk heq
  have hreg : crcRegister (pre ++ b :: post) =
      crcRegister (pre ++ (b ^^^ BitVec.twoPow 8 k) :: post) := (BitVec.xor_left_inj crcOnes).mp heq
  rw [crcRegister, crcRegister, List.foldl_append, List.foldl_append, List.foldl_cons,
    List.foldl_cons] at hreg
  have hbyte := crcByte_injective_byte (foldl_crcByte_injective post hreg)
  have hbit := congrArg (BitVec.getLsbD · k) hbyte
  simp [hk] at hbit

/-- The outer loop is linear in the register and the bytes together. -/
theorem foldl_crcByte_xor (l l' : List Byte) (r r' : Word32) (h : l.length = l'.length) :
    (List.zipWith (· ^^^ ·) l l').foldl crcByte (r ^^^ r') =
      l.foldl crcByte r ^^^ l'.foldl crcByte r' := by
  induction l generalizing l' r r' with
  | nil =>
    rw [List.length_eq_zero_iff.mp h.symm]
    rfl
  | cons b l ih =>
    cases l' with
    | nil => simp at h
    | cons b' l' =>
      rw [List.zipWith_cons_cons, List.foldl_cons, crcByte_xor, ih l' _ _ (Nat.succ.inj h)]
      rfl

/-- Settles O33: three registers that start at one value start at their exclusive-or. -/
theorem crcIsAffine : Obligations.CrcIsAffine := by
  intro x y z hxy hyz
  have hlen : (List.zipWith (· ^^^ ·) x y).length = z.length := by simp [hxy, hyz]
  have hones : crcOnes = crcOnes ^^^ crcOnes ^^^ crcOnes := by decide
  have hreg : crcRegister (List.zipWith (· ^^^ ·) (List.zipWith (· ^^^ ·) x y) z) =
      crcRegister x ^^^ crcRegister y ^^^ crcRegister z := by
    rw [crcRegister, hones, foldl_crcByte_xor _ _ _ _ hlen, foldl_crcByte_xor _ _ _ _ hxy]
    rfl
  rw [crc32, hreg, hones, crc32, crc32, crc32]
  ac_rfl

/-- The bytes of a word, least significant first, as the residue statement feeds them. -/
def leBytes (x : Word32) : List Byte :=
  [x.extractLsb' 0 8, x.extractLsb' 8 8, x.extractLsb' 16 8, x.extractLsb' 24 8]

/-- A register that takes in its own bytes is left with none of them. -/
theorem foldl_crcByte_leBytes (x : Word32) : (leBytes x).foldl crcByte x = 0 := by
  have hlow (j : Nat) : x.extractLsb' j 8 = (x >>> j).extractLsb' 0 8 := by
    refine BitVec.eq_of_getLsbD_eq fun i _ => ?_
    simp
  have hzero : x >>> 32 = 0 := by
    refine BitVec.eq_of_getLsbD_eq fun i _ => ?_
    simp
  rw [leBytes, hlow 8, hlow 16, hlow 24]
  simp only [List.foldl_cons, List.foldl_nil, crcByte_low, ← BitVec.shiftRight_add]
  exact hzero

/-- Settles O34: the register is the checksum inverted; by linearity the checksum's bytes cancel it, and
what is left is what four zero bytes make of the inversion. -/
theorem crcResidue : Obligations.CrcResidue := by
  intro l
  have hreg : crcRegister (l ++ leBytes (crc32 l)) = 0xDEBB20E3 := by
    have hinv : crcRegister l = crc32 l ^^^ crcOnes := by
      rw [crc32, BitVec.xor_assoc, BitVec.xor_self, BitVec.xor_zero]
    have hbytes : leBytes (crc32 l) = List.zipWith (· ^^^ ·) (leBytes (crc32 l)) [0, 0, 0, 0] := by
      simp [leBytes]
    have hzeros : [0, 0, 0, 0].foldl crcByte crcOnes = 0xDEBB20E3 := by decide +kernel
    calc crcRegister (l ++ leBytes (crc32 l))
        = (leBytes (crc32 l)).foldl crcByte (crcRegister l) := List.foldl_append
      _ = (leBytes (crc32 l)).foldl crcByte (crc32 l) ^^^ [0, 0, 0, 0].foldl crcByte crcOnes := by
        rw [hinv, ← foldl_crcByte_xor (leBytes (crc32 l)) [0, 0, 0, 0] _ _ rfl, ← hbytes]
      _ = 0xDEBB20E3 := by rw [foldl_crcByte_leBytes, hzeros]; exact BitVec.zero_xor
  refine ⟨hreg, ?_⟩
  have hcrc : crc32 (l ++ leBytes (crc32 l)) = 0xDEBB20E3 ^^^ crcOnes := congrArg (· ^^^ crcOnes) hreg
  exact hcrc.trans (by decide)

end Sys2Proof.Machine
